-- ==== Sys2Proof/Word.lean ====
section
/-! DEFINITION. The widths of CORE's data (R12, R13, R15, R81, R85, R86) and the two kinds of word the
opcode table has (R101): the 3-bit phase code of an operation and the 7-bit segment group. -/

namespace Sys2Proof

/-- One capture window entry (R81): bit 0 the clock level, bit 1 the data level. -/
abbrev Sample := BitVec 2

/-- A segment group as the number num(g) of R15, R85: position 0 is bit 6. -/
abbrev Group := BitVec 7

/-- The bit stream register sr[0..20] as the number num(sr) of R15, R86: sr[0] is bit 20. -/
abbrev Stream := BitVec 21

/-- A digit value, DW = 4 bits (R13). -/
abbrev Digit := BitVec 4

/-- An assembled value, VW = 10 bits (R13). -/
abbrev Value := BitVec 10

/-- What the opcode table calls a word (R101): the phase code of an operation (format OP), or a
segment group (format GROUP7).  The two formats are separate spaces: neither holds bits that tell
it from the other (log entry 10). -/
inductive Word where
  | op (code : BitVec 3)
  | group (g : Group)
deriving DecidableEq, Repr

/-- Three like registers, one for each segment group: dig_valid[0..2] and dig[0..2] of R29. -/
structure Triple (α : Type) where
  d0 : α
  d1 : α
  d2 : α
deriving DecidableEq, Repr

end Sys2Proof
end

