-- ==== Sys2Proof/Machine/Scan.lean ====
section
/-! DEFINITION. The two scans of the capture window as functions of its levels: the synchronizer's (R112)
and the extractor's (R123).  A level is a Bool, true for high (R80).  The first argument of each
recursion is the number of entries left. -/

namespace Sys2Proof.Machine

/-- The two results of SYNC (R16). -/
inductive SyncResult where
  | found (j : Nat)
  | notFound
deriving DecidableEq, Repr

/-- SYNC's result and its scratch registers at the end (R114). -/
structure SyncEnd where
  result : SyncResult
  idx    : Nat
  run    : Nat
deriving DecidableEq, Repr

/-- The while loop of R112: advance j while the next entry exists and is low. -/
def advanceLow (clk : Nat → Bool) : Nat → Nat → Nat
  | 0, j => j
  | left + 1, j => if clk (j + 1) then j else advanceLow clk left (j + 1)

/-- The for loop of R112 from index i on, with the low-run counter at run. -/
def syncScan (clk : Nat → Bool) (gap : Nat) : Nat → Nat → Nat → SyncEnd
  | 0, i, run => ⟨.notFound, i - 1, run⟩
  | left + 1, i, run =>
    let run' := if clk i then 0 else run + 1
    if run' = gap then
      let j := advanceLow clk left i
      ⟨.found j, j, run'⟩
    else syncScan clk gap left (i + 1) run'

/-- SYNC(CW) of R112: the scan starts at index 0 with run = 0. -/
def syncWindow (clk : Nat → Bool) (n gap : Nat) : SyncEnd := syncScan clk gap n 0 0

/-- The two end conditions of EXTRACT (R16). -/
inductive EndOfFrame where
  | eof (p : Nat)
  | incomplete
deriving DecidableEq, Repr

/-- The registers EXTRACT's loop works on (R123). -/
structure ExtractAcc where
  idx   : Nat
  run   : Nat
  sr    : Stream
  nbits : Nat
deriving DecidableEq, Repr

/-- sr[k] (R15, R27): element 0 is the most significant of the 21 bits. -/
def streamBit (sr : Stream) (k : Nat) : Bool := decide (k < 21) && sr.getLsbD (20 - k)

/-- sr[k] <- b, for k at most 20. -/
def streamWrite (sr : Stream) (k : Nat) (b : Bool) : Stream :=
  (sr &&& ~~~(1#21 <<< (20 - k))) ||| ((BitVec.ofBool b).setWidth 21 <<< (20 - k))

/-- The falling edge test of R122 at index p. -/
def fallingEdge (clk : Nat → Bool) (p : Nat) : Bool := clk (p - 1) && !clk p

/-- The bit of a falling edge is appended while there is room (R123 point (2)). -/
def appendBit (a : ExtractAcc) (b : Bool) : ExtractAcc :=
  if a.nbits < 21 then { a with sr := streamWrite a.sr a.nbits b, nbits := a.nbits + 1 } else a

/-- The for loop of R123 from index p on.  At one index the edge test comes before the gap test (R123
point (3)). -/
def extractScan (clk dat : Nat → Bool) (gap : Nat) : Nat → Nat → ExtractAcc → ExtractAcc × EndOfFrame
  | 0, _, a => (a, .incomplete)
  | left + 1, p, a =>
    if clk p then extractScan clk dat gap left (p + 1) { a with idx := p, run := 0 }
    else
      let b := if fallingEdge clk p then appendBit a (dat p) else a
      let c := { b with idx := p, run := a.run + 1 }
      if c.run = gap then (c, .eof p) else extractScan clk dat gap left (p + 1) c

/-- EXTRACT(CW, s) of R123 with the scan index at idx before it: only indices above s are looked at (R123
point (1)). -/
def extractWindow (clk dat : Nat → Bool) (n gap s idx : Nat) : ExtractAcc × EndOfFrame :=
  extractScan clk dat gap (n - (s + 1)) (s + 1) { idx := idx, run := 0, sr := 0, nbits := 0 }

end Sys2Proof.Machine
end

