-- ==== Sys2Proof/Config.lean ====
section
/-! DEFINITION. The implementation parameters N, GAP, STAB and TABLE (R10, R11), the numbers the
source fixes (R12), the derived register widths (R13), and the one free value of the model: what a
capture window entry holds that the Sampler has not written (R236, U9). -/

namespace Sys2Proof

/-- Format ROW (R90): a 7-bit pattern, its canonical value and the terminal/blank flag. -/
structure Row where
  pattern : Group
  value   : Digit
  blank   : Bool
deriving DecidableEq, Repr

/-- The digit pattern table, an ordered list of rows (R55, R92). -/
abbrev Table := List Row

/-- The four configuration constants (R10, R11).  They are constants of a machine, not registers of it:
no operation writes them and reset does not change them. -/
structure Params where
  /-- N, the number of entries of the capture window. -/
  n     : Nat
  /-- GAP, the idle threshold in clock-low samples. -/
  gap   : Nat
  /-- STAB, the stability threshold in consecutive accepted frames. -/
  stab  : Nat
  /-- TABLE, the content of the pattern ROM. -/
  table : Table
deriving DecidableEq, Repr

/-- GROUP_BITS of R12. -/
def Config.groupBits : Nat := 7
/-- NDIGITS of R12. -/
def Config.nDigits : Nat := 3
/-- FRAME_BITS of R12. -/
def Config.frameBits : Nat := 21
/-- NROWS of R12. -/
def Config.nRows : Nat := 13

/-- The smallest k with x ≤ 2^k. -/
def Config.ceilLog2 (x : Nat) : Nat := if x ≤ 1 then 0 else Nat.log2 (x - 1) + 1

/-- AW, the width of a capture window index (R13). -/
def Params.addrWidth (p : Params) : Nat := max 1 (Config.ceilLog2 p.n)
/-- RW, the width of the low-run counter (R13). -/
def Params.runWidth (p : Params) : Nat := Config.ceilLog2 (p.gap + 1)
/-- KW, the width of the stability count (R13). -/
def Params.countWidth (p : Params) : Nat := Config.ceilLog2 (p.stab + 1)

/-- FREE VALUE (R236, U9): what entry i of the capture window reads as in window number epoch, when
the Sampler has not written it.  It has no body: nothing can evaluate it, and a claim that holds,
holds whatever it is (log entry 4). -/
opaque Config.freeSample : Nat → Nat → Sample

end Sys2Proof
end

