-- ==== Sys2Proof/Machine/Memory.lean ====
section
/-! DEFINITION. The capture window memory CW as a list of (index, byte) cells in one canonical form: indices
strictly rising, each byte a 2-bit sample (R51, R52, R81).  What an unlisted index reads as is a
free value, so no listed cell can be equal to it and none is ever left out on that account
(log entry 4). -/

namespace Sys2Proof.Machine

/-- Cells of the capture window, indices rising. -/
abbrev Memory := List Host.Cell

/-- The byte listed at index i. -/
def cellAt : Memory → Nat → Option (BitVec 8)
  | [], _ => none
  | (k, b) :: rest, i => if k = i then some b else cellAt rest i

/-- Lists byte b at index i, in place of what was listed there, keeping the order. -/
def insertCell (i : Nat) (b : BitVec 8) : Memory → Memory
  | [] => [(i, b)]
  | (k, c) :: rest =>
    if i < k then (i, b) :: (k, c) :: rest
    else if i = k then (i, b) :: rest
    else (k, c) :: insertCell i b rest

/-- Every index of the memory is at least lo and they rise strictly; every byte is a 2-bit sample. -/
def wfFrom : Nat → Memory → Bool
  | _, [] => true
  | lo, (k, b) :: rest => decide (lo ≤ k) && decide (b.toNat < 4) && wfFrom (k + 1) rest

/-- The canonical form of the capture window memory. -/
def Memory.wf (m : Memory) : Bool := wfFrom 0 m

end Sys2Proof.Machine
end

