-- ==== Sys2Proof/Machine/Rom.lean ====
section
/-! DEFINITION. The digit pattern ROM: reading a row (R56), the first-match rule (R136), the layout of a
row in the ROM (R91), what every admissible TABLE satisfies (R92), the default parameters (R11, R94)
and the legal ranges of the parameters (R11). -/

namespace Sys2Proof.Machine

/-- MemRead(ROM, r) (R56): row r of the table, none where there is no such row. -/
def romRow (t : Table) (r : Nat) : Option Row := t[r]?

/-- All seven positions of the row's pattern equal the group's (R136).  The blank flag is not looked at
(R93). -/
def rowMatches (row : Row) (g : Group) : Bool := row.pattern == g

/-- The number of the first row, in declaration order, that matches the group (R136). -/
def firstMatch : Table → Group → Option Nat
  | [], _ => none
  | row :: rest, g => if rowMatches row g then some 0 else (firstMatch rest g).map (· + 1)

/-- The two results of DECODE (R16, R135). -/
inductive DigitResult where
  | digit (v : Digit)
  | unrecognized
deriving DecidableEq, Repr

/-- DECODE(g) (R136): the canonical value of the first row that matches, later rows are not consulted. -/
def decodeDigit : Table → Group → DigitResult
  | [], _ => .unrecognized
  | row :: rest, g => if rowMatches row g then .digit row.value else decodeDigit rest g

/-- The 12-bit ROM word of a row (R91): pattern in bits 11:5, value in bits 4:1, blank in bit 0. -/
def romWord (row : Row) : BitVec 12 := row.pattern ++ row.value ++ BitVec.ofBool row.blank

/-- The row a 12-bit ROM word holds (R91). -/
def rowOfRomWord (w : BitVec 12) : Row :=
  { pattern := w.extractLsb' 5 7, value := w.extractLsb' 1 4, blank := w.getLsbD 0 }

/-- DEFAULT_TABLE (R94).  Its patterns are the spec's choice, not the device's. -/
def defaultTable : Table :=
  [ ⟨0b1111110#7, 0#4, false⟩
  , ⟨0b0110000#7, 1#4, false⟩
  , ⟨0b1101101#7, 2#4, false⟩
  , ⟨0b1111001#7, 3#4, false⟩
  , ⟨0b0110011#7, 4#4, false⟩
  , ⟨0b1011011#7, 5#4, false⟩
  , ⟨0b1011111#7, 6#4, false⟩
  , ⟨0b1110000#7, 7#4, false⟩
  , ⟨0b1111111#7, 8#4, false⟩
  , ⟨0b1111011#7, 9#4, false⟩
  , ⟨0b1111111#7, 0#4, false⟩
  , ⟨0b0110001#7, 1#4, false⟩
  , ⟨0b0000000#7, 0#4, true⟩ ]

/-- The defaults of R11. -/
def defaultParams : Params := { n := 100000, gap := 1000, stab := 10, table := defaultTable }

/-- No value stands twice in the list. -/
def distinct {α : Type} [DecidableEq α] : List α → Bool
  | [] => true
  | a :: rest => !rest.contains a && distinct rest

/-- R92 (c): the ten plain-digit rows carry each canonical value once, and their patterns differ from
each other (the assumption D30, under which a table that breaks it is refused). -/
def plainRowsLegal (plain : List Row) : Bool :=
  distinct (plain.map (·.value)) && distinct (plain.map (·.pattern))

/-- R92 (b), (d), (f): the indicator rows carry the values 0 and 1 in one order or the other, one of them
has a plain row's pattern, and the last row is the all-zero pattern with value 0. -/
def lastRowsLegal (plain : List Row) : List Row → Bool
  | [a, b, z] =>
      ((a.value == 0 && b.value == 1) || (a.value == 1 && b.value == 0))
        && (plain.any (·.pattern == a.pattern) || plain.any (·.pattern == b.pattern))
        && z.pattern == 0 && z.value == 0
  | _ => false

/-- R92: what every admissible TABLE satisfies.  An earlier row with the all-zero pattern is admitted:
R139 says what DECODE returns then (log entry 2). -/
def tableLegal (t : Table) : Bool :=
  t.length == Config.nRows && t.all (fun row => decide (row.value.toNat ≤ 9))
    && plainRowsLegal (t.take 10) && lastRowsLegal (t.take 10) (t.drop 10)

/-- The legal ranges of R11, outside which a model refuses the configuration. -/
def paramsLegal (p : Params) : Bool :=
  decide (1 ≤ p.n) && decide (1 ≤ p.gap) && decide (2 ≤ p.stab) && tableLegal p.table

end Sys2Proof.Machine
end

