-- ==== Sys2Proof/Machine/State.lean ====
section
/-! DEFINITION. The state of CORE (R20 to R37): the stability state, the working registers of one iteration,
the handshake and outputs, the input pins, the capture window, the parameters, and the model's own
fields; the reasons a step can stop; the state after reset. -/

namespace Sys2Proof.Machine

/-- The phase register (R24, R99). -/
inductive Phase where
  | idle
  | sync
  | extract
  | decode
  | assemble
  | filter
  | done
deriving DecidableEq, Repr

/-- The status register (R31, R100). -/
inductive Status where
  | none
  | syncFail
  | incomplete
  | unrecognized
  | zeroDiscard
  | accepted
deriving DecidableEq, Repr

/-- How much of an iteration one step of the model does (R17, R252: each operation, and ITERATE as a whole,
is one atomic step).  A field of the model, not of CORE (log entry 6). -/
inductive StepCut where
  /-- An accepted start runs ITERATE in one step. -/
  | iteration
  /-- An accepted start clears the registers; each phase is one step. -/
  | operation
  /-- As operation, and in P_DECODE each of the three applications of DECODE is one step. -/
  | group
deriving DecidableEq, Repr

/-- The stability state S, which persists across iterations (R21). -/
structure Stability where
  candValid : Bool
  cand      : Value
  count     : Nat
  lcValid   : Bool
  lc        : Value
deriving DecidableEq, Repr

/-- The working registers of one iteration (R25 to R30), cleared at each accepted start (R34).  The index
and count registers are numbers whose bounds, and so their widths AW, RW and 5 bits, are
invariants of the machine (log entry 3). -/
structure Working where
  idx       : Nat
  run       : Nat
  syncFound : Bool
  syncIdx   : Nat
  sr        : Stream
  nbits     : Nat
  eofFound  : Bool
  eofIdx    : Nat
  digValid  : Triple Bool
  dig       : Triple Digit
  valValid  : Bool
  val       : Value
deriving DecidableEq, Repr

/-- The state of the machine. -/
structure State where
  /-- N, GAP, STAB, TABLE: constants of the machine, held here so that step is a function of the state
  (R10, R33, log entry 1). -/
  params      : Params
  /-- S (R21). -/
  stability   : Stability
  /-- The registers of R25 to R30. -/
  work        : Working
  /-- phase (R24). -/
  phase       : Phase
  /-- busy, done, status (R31). -/
  busy        : Bool
  done        : Bool
  status      : Status
  /-- commit, commit_value (R32). -/
  commit      : Bool
  commitValue : Value
  /-- The input pins rst and start (R186), as the outside drives them for the next step (log entry 8). -/
  rst         : Bool
  start       : Bool
  /-- The entries of CW the Sampler has written for the present window (R51, R53). -/
  cw          : Memory
  /-- An iteration, finished or aborted, has used up the present window, or none has been written yet:
  nothing has been written since (R236, log entry 5). -/
  cwStale     : Bool
  /-- The number of the present window, the argument of the free value (log entry 4). -/
  cwEpoch     : Nat
  /-- The model's own (log entry 6). -/
  cut         : StepCut
  /-- The loop variable k of "for k = 0, 1, 2" in R182, where a step is one application of DECODE (log
  entry 7). -/
  group       : Fin 3
deriving DecidableEq, Repr

/-- CORE raises no fault of any kind (R208): there is none to name (log entry 18). -/
inductive Fault
deriving DecidableEq, Repr

/-- The reasons the model refuses.  All of them are the spec's own preconditions, and all are safe: the
model stops where the spec gives no behaviour. -/
inductive Refusal where
  /-- An instruction without a meaning, raised by exec's arm. No arm does.  Safe. -/
  | notModelled (mnemonic : String)
  /-- Raised by every meaning and by step: N, GAP, STAB or TABLE is outside its legal range (R11, U1,
  U2, U6: a model refuses it).  Safe. -/
  | paramsOutOfRange
  /-- Raised by EXTRACT called with a start index above N - 1 (R120, U10).  Safe. -/
  | extractStartOutOfRange
  /-- Raised by FILTER called with a value outside 1 to 999 (R169 (f), U7).  Safe. -/
  | candidateOutOfRange
  /-- Raised by MemRead(CW, i) and by the Sampler's MemWrite(CW, i, v) for an index above N - 1 (R52,
  R53); no operation of CORE does it.  Safe. -/
  | cwIndexOutOfRange
  /-- Raised by the Sampler's MemWrite(CW, i, v) while busy = 1, which the environment must not do (R53,
  R241, U8).  Safe. -/
  | cwWriteWhileBusy
  /-- Raised by step on a word that is no instruction: phase code 7, or a row beyond row 12.  No legal
  machine fetches one.  Safe. -/
  | undecodable
deriving DecidableEq, Repr

/-- The working registers cleared (R34, R37). -/
def Working.cleared : Working :=
  { idx := 0, run := 0, syncFound := false, syncIdx := 0, sr := 0, nbits := 0
    eofFound := false, eofIdx := 0, digValid := ⟨false, false, false⟩, dig := ⟨0, 0, 0⟩
    valValid := false, val := 0 }

/-- The stability state NoCandidate with nothing committed (R37). -/
def Stability.none : Stability :=
  { candValid := false, cand := 0, count := 0, lcValid := false, lc := 0 }

/-- The machine right after reset (R37, R231), with the default parameters (R11) and no capture window
entry written. -/
def State.reset : State :=
  { params := defaultParams
    stability := Stability.none
    work := Working.cleared
    phase := .idle
    busy := false
    done := false
    status := .none
    commit := false
    commitValue := 0
    rst := false
    start := false
    cw := []
    cwStale := true
    cwEpoch := 0
    cut := .iteration
    group := 0 }

/-- What a step answers. -/
abbrev Outcome := Host.Outcome State Fault Refusal

end Sys2Proof.Machine
end

