-- ==== Sys2Proof/Machine/Operands.lean ====
section
/-! DEFINITION. The operands of the operations: the segment groups of the stream (R57 (c), R86), the register
arrays dig_valid and dig (R29), the assembled value (R87), and the ranges of EXTRACT's and FILTER's
operands (R120, R160). -/

namespace Sys2Proof.Machine

/-- Group k of a stream (R86): sr[7k..7k+6], bits 20-7k down to 14-7k of the number. -/
def groupOf (sr : Stream) (k : Fin 3) : Group := sr.extractLsb' (14 - 7 * k.val) 7

/-- x[k] of a register array. -/
def tripleGet {α : Type} (x : Triple α) (k : Fin 3) : α :=
  match k with
  | 0 => x.d0
  | 1 => x.d1
  | 2 => x.d2

/-- x[k] <- v of a register array. -/
def tripleSet {α : Type} (x : Triple α) (k : Fin 3) (v : α) : Triple α :=
  match k with
  | 0 => { x with d0 := v }
  | 1 => { x with d1 := v }
  | 2 => { x with d2 := v }

/-- val = 100 * zext_10(dig[0]) + 10 * zext_10(dig[1]) + zext_10(dig[2]) (R87). -/
def assembledValue (d : Triple Digit) : Value :=
  100#10 * d.d0.setWidth 10 + 10#10 * d.d1.setWidth 10 + d.d2.setWidth 10

/-- EXTRACT's start index is a window index (R120). -/
def extractStartLegal (p : Params) (s : Nat) : Bool := decide (s < p.n)

/-- FILTER's operand is a candidate, 1 to 999 (R19, R160). -/
def candidateLegal (v : Value) : Bool := decide (1 ≤ v.toNat) && decide (v.toNat ≤ 999)

end Sys2Proof.Machine
end

