-- ==== Sys2Proof/Machine/Ops.lean ====
section
/-! DEFINITION. The named operations over the capture window and the registers: reading an entry (R52), the
acceptance of start (R34), ending an iteration early with an outcome (R204, the analogue of taking
an exception) and ending it accepted (R182); what follows an outcome is the next accepted start
(R205), there is no return. -/

namespace Sys2Proof.Machine

/-- Every configuration outside the legal ranges is refused (R11). -/
def whenLegal (s : State) (r : Outcome) : Outcome :=
  if paramsLegal s.params then r else .refused .paramsOutOfRange

/-- What entry i of the capture window holds: what the Sampler wrote for the window in use, else a free value
(R236, U9).  No entry of a used-up window has been written since the last iteration, so all of them are
the free values of the next window. -/
def sampleAt (s : State) (i : Nat) : Sample :=
  if s.cwStale then Config.freeSample (s.cwEpoch + 1) i
  else
    match cellAt s.cw i with
    | some b => b.setWidth 2
    | none => Config.freeSample s.cwEpoch i

/-- MemRead(CW, i) (R52): the entry at an index below N. -/
def memReadCW (s : State) (i : Nat) : Except Refusal Sample :=
  if i < s.params.n then .ok (sampleAt s i) else .error .cwIndexOutOfRange

/-- clk(i): the clock bit of entry i, bit 0 of the sample (R81). -/
def clk (s : State) (i : Nat) : Bool := (sampleAt s i).getLsbD 0

/-- dat(i): the data bit of entry i, bit 1 of the sample (R81). -/
def dat (s : State) (i : Nat) : Bool := (sampleAt s i).getLsbD 1

/-- A used-up window is replaced by the next one, of which no entry has been written (R53, R236).  Every entry
reads as before (the lemma sampleAt_freshWindow). -/
def freshWindow (s : State) : State :=
  if s.cwStale then { s with cw := [], cwStale := false, cwEpoch := s.cwEpoch + 1 } else s

/-- The acceptance of start (R34): every working register and the commit output cleared, busy set, done
cleared; status keeps its code, the stability state is not touched. -/
def acceptStart (s : State) : State :=
  { freshWindow s with
    work := Working.cleared
    group := 0
    commit := false
    commitValue := 0
    busy := true
    done := false
    phase := .sync }

/-- The end of an iteration: the status and the commit output are written, CORE is in P_DONE (R182). -/
def endIteration (st : Status) (commit : Bool) (v : Value) (s : State) : State :=
  { s with
    status := st
    commit := commit
    commitValue := v
    phase := .done
    busy := false
    done := true
    group := 0
    cwStale := true }

/-- The four early outcomes (R200). -/
inductive EarlyOutcome where
  | syncFail
  | incomplete
  | unrecognized
  | zeroDiscard
deriving DecidableEq, Repr

/-- ST_X of an early outcome (R100, R200). -/
def EarlyOutcome.status : EarlyOutcome → Status
  | .syncFail => .syncFail
  | .incomplete => .incomplete
  | .unrecognized => .unrecognized
  | .zeroDiscard => .zeroDiscard

/-- raise X (R204): the outcome's status, no commit, P_DONE; the stability state and the working registers
are left as they are. -/
def raise (x : EarlyOutcome) (s : State) : State := endIteration x.status false 0 s

/-- The inputs of this step are seen once: a start that is not accepted is not queued (R188). -/
def takeInputs (s : State) : State := { s with rst := false, start := false }

end Sys2Proof.Machine
end

