-- ==== Sys2Proof/Machine/Digits.lean ====
section
/-! DEFINITION. The operation DECODE (R135 to R144): of the three groups of the stream, and of one group. -/

namespace Sys2Proof.Machine

/-- The valid bit of a result of DECODE (R29, R137). -/
def digitValid : DigitResult → Bool
  | .digit _ => true
  | .unrecognized => false

/-- The digit register of a result of DECODE: 0 for the sentinel (R29, R137). -/
def digitValue : DigitResult → Digit
  | .digit v => v
  | .unrecognized => 0

/-- dig_valid[k] and dig[k] as R137 writes them. -/
def writeDigit (k : Fin 3) (r : DigitResult) (s : State) : State :=
  { s with work := { s.work with digValid := tripleSet s.work.digValid k (digitValid r)
                                 dig := tripleSet s.work.dig k (digitValue r) } }

/-- DECODE(sr[7k..7k+6]) -> dig_valid[k], dig[k] (R182). -/
def decodeGroupK (k : Fin 3) (s : State) : State :=
  writeDigit k (decodeDigit s.params.table (groupOf s.work.sr k)) s

/-- All three groups, also when the first is already unrecognized (R142). -/
def runDecode (s : State) : State := decodeGroupK 2 (decodeGroupK 1 (decodeGroupK 0 s))

/-- DECODE of the three groups, then P_ASSEMBLE (R181). -/
def execDecode (s : State) : Outcome :=
  whenLegal s (.next { runDecode s with phase := .assemble, group := 0 })

/-- The loop over the groups goes on to the next one, and after the third to P_ASSEMBLE (R182). -/
def nextGroup (s : State) : State :=
  match s.group with
  | 0 => { s with phase := .decode, group := 1 }
  | 1 => { s with phase := .decode, group := 2 }
  | 2 => { s with phase := .assemble, group := 0 }

/-- DECODE(g) for the group whose turn it is. -/
def applyGroup (g : Group) (s : State) : State :=
  nextGroup (writeDigit s.group (decodeDigit s.params.table g) s)

/-- DECODE of the segment group that row r of the ROM holds (log entry 11). -/
def applyRow (r : Nat) (s : State) : Outcome :=
  whenLegal s
    (match romRow s.params.table r with
     | some row => .next (applyGroup row.pattern s)
     | none => .refused .undecodable)

/-- DECODE of row 0's group. -/
def execRow0 (s : State) : Outcome := applyRow 0 s
/-- DECODE of row 1's group. -/
def execRow1 (s : State) : Outcome := applyRow 1 s
/-- DECODE of row 2's group. -/
def execRow2 (s : State) : Outcome := applyRow 2 s
/-- DECODE of row 3's group. -/
def execRow3 (s : State) : Outcome := applyRow 3 s
/-- DECODE of row 4's group. -/
def execRow4 (s : State) : Outcome := applyRow 4 s
/-- DECODE of row 5's group. -/
def execRow5 (s : State) : Outcome := applyRow 5 s
/-- DECODE of row 6's group. -/
def execRow6 (s : State) : Outcome := applyRow 6 s
/-- DECODE of row 7's group. -/
def execRow7 (s : State) : Outcome := applyRow 7 s
/-- DECODE of row 8's group. -/
def execRow8 (s : State) : Outcome := applyRow 8 s
/-- DECODE of row 9's group. -/
def execRow9 (s : State) : Outcome := applyRow 9 s
/-- DECODE of row 10's group: where row 10 is shadowed (R97), the earlier row's value. -/
def execRow10 (s : State) : Outcome := applyRow 10 s
/-- DECODE of row 11's group: where row 11 is shadowed (R97), the earlier row's value. -/
def execRow11 (s : State) : Outcome := applyRow 11 s
/-- DECODE of row 12's group, the all-zero one: value 0 (R139). -/
def execRow12 (s : State) : Outcome := applyRow 12 s
/-- DECODE of a group that no row has (R96). -/
def execUnrecognized (g : Group) (s : State) : Outcome := whenLegal s (.next (applyGroup g s))

end Sys2Proof.Machine
end

