-- ==== Sys2Proof/Machine/Flags.lean ====
section
/-! DEFINITION. The one-bit results that play the part of flags (R39), the codes of the phase and status
registers (R99, R100), and the filter's three states as functions of the registers (R23). -/

namespace Sys2Proof.Machine

/-- Phase codes (R99). -/
def Phase.code : Phase → BitVec 3
  | .idle => 0
  | .sync => 1
  | .extract => 2
  | .decode => 3
  | .assemble => 4
  | .filter => 5
  | .done => 6

/-- Status codes (R100). -/
def Status.code : Status → BitVec 3
  | .none => 0
  | .syncFail => 1
  | .incomplete => 2
  | .unrecognized => 3
  | .zeroDiscard => 4
  | .accepted => 5

/-- The frame is complete exactly when the end condition is Eof(p) and nbits = 21 (R124). -/
def frameComplete (w : Working) : Bool := w.eofFound && decide (21 ≤ w.nbits)

/-- All three digits are recognized (R153). -/
def allRecognized (d : Triple Bool) : Bool := d.d0 && d.d1 && d.d2

/-- NoCandidate, Accumulating and Stable (R23). -/
inductive FilterState where
  | noCandidate
  | accumulating
  | stable
deriving DecidableEq, Repr

/-- The filter state the registers stand for (R23), with STAB the stability threshold. -/
def filterState (stab : Nat) (S : Stability) : FilterState :=
  if S.candValid then (if S.count < stab then .accumulating else .stable) else .noCandidate

/-- The value differs from last_committed; every value differs from "none" (R164). -/
def differsFromCommitted (S : Stability) (v : Value) : Bool := !S.lcValid || S.lc != v

/-- What the Sink is to persist (R190, R62 (d)): commit_value while done = 1 and commit = 1. -/
def sinkSees (s : State) : Option Value := if s.done && s.commit then some s.commitValue else none

end Sys2Proof.Machine
end

