-- ==== Sys2Proof/Machine/Assemble.lean ====
section
/-! DEFINITION. The operation ASSEMBLE (R150 to R158). -/

namespace Sys2Proof.Machine

/-- val_valid and val as R151 writes them from recognized or unrecognized digits. -/
def sumDigits (s : State) : State :=
  if allRecognized s.work.digValid then
    { s with work := { s.work with valValid := true, val := assembledValue s.work.dig } }
  else { s with work := { s.work with valValid := false, val := 0 } }

/-- ASSEMBLE(sr, nbits, eof_found) of R151: an incomplete frame is Invalid without decoding; else the three
groups are decoded, through DECODE into dig_valid and dig (R155), and summed. -/
def runAssemble (s : State) : State :=
  if frameComplete s.work then sumDigits (runDecode s)
  else { s with work := { s.work with valValid := false, val := 0 } }

/-- What follows P_ASSEMBLE (R154, R155, R181): Invalid as its cause was, Value(0) discarded, else P_FILTER. -/
def afterAssemble (s : State) : State :=
  if s.work.valValid then
    (if s.work.val = 0 then raise .zeroDiscard s else { s with phase := .filter })
  else if frameComplete s.work then raise .unrecognized s
  else raise .incomplete s

/-- ASSEMBLE and the transfer out of P_ASSEMBLE. -/
def execAssemble (s : State) : Outcome := whenLegal s (.next (afterAssemble (runAssemble s)))

end Sys2Proof.Machine
end

