-- ==== Sys2Proof/Machine/Extract.lean ====
section
/-! DEFINITION. The operation EXTRACT (R120 to R132). -/

namespace Sys2Proof.Machine

/-- sr, nbits, eof_found, eof_idx and the scratch registers as R123 writes them, from start index start. -/
def runExtract (start : Nat) (s : State) : State :=
  let r := extractWindow (clk s) (dat s) s.params.n s.params.gap start s.work.idx
  match r.2 with
  | .eof p =>
    { s with work := { s.work with idx := r.1.idx, run := r.1.run, sr := r.1.sr, nbits := r.1.nbits,
                                   eofFound := true, eofIdx := p } }
  | .incomplete =>
    { s with work := { s.work with idx := r.1.idx, run := r.1.run, sr := r.1.sr, nbits := r.1.nbits,
                                   eofFound := false, eofIdx := 0 } }

/-- What follows P_EXTRACT (R127, R181). -/
def afterExtract (s : State) : State :=
  if frameComplete s.work then { s with phase := .decode, group := 0 } else raise .incomplete s

/-- EXTRACT from the start index in sync_idx (R182); a start index above N - 1 is refused (R120, U10). -/
def execExtract (s : State) : Outcome :=
  whenLegal s
    (if extractStartLegal s.params s.work.syncIdx then .next (afterExtract (runExtract s.work.syncIdx s))
     else .refused .extractStartOutOfRange)

end Sys2Proof.Machine
end

