-- ==== Sys2Proof/Machine/Filter.lean ====
section
/-! DEFINITION. The operation FILTER (R160 to R170). -/

namespace Sys2Proof.Machine

/-- The two results of FILTER (R16). -/
inductive FilterResult where
  | commit (v : Value)
  | noCommit
deriving DecidableEq, Repr

/-- FILTER(S, v) of R162 with STAB the stability threshold. -/
def filterStep (stab : Nat) (S : Stability) (v : Value) : Stability × FilterResult :=
  if !S.candValid then ({ S with candValid := true, cand := v, count := 1 }, .noCommit)
  else if v ≠ S.cand then ({ S with cand := v, count := 1 }, .noCommit)
  else if S.count < stab then
    if S.count + 1 = stab then
      if differsFromCommitted S v then
        ({ S with count := S.count + 1, lcValid := true, lc := v }, .commit v)
      else ({ S with count := S.count + 1 }, .noCommit)
    else ({ S with count := S.count + 1 }, .noCommit)
  else (S, .noCommit)

/-- FILTER in the iteration: the new stability state, the commit output (R167), and the end ACCEPTED. -/
def runFilter (v : Value) (s : State) : State :=
  let r := filterStep s.params.stab s.stability v
  match r.2 with
  | .commit c => endIteration .accepted true c { s with stability := r.1 }
  | .noCommit => endIteration .accepted false 0 { s with stability := r.1 }

/-- FILTER of the candidate in val (R182); a value outside 1 to 999 is refused (R169 (f), U7). -/
def execFilter (s : State) : Outcome :=
  whenLegal s
    (if candidateLegal s.work.val then .next (runFilter s.work.val s)
     else .refused .candidateOutOfRange)

end Sys2Proof.Machine
end

