-- ==== Sys2Proof/Machine/Sync.lean ====
section
/-! DEFINITION. The operation SYNC (R110 to R117). -/

namespace Sys2Proof.Machine

/-- sync_found, sync_idx and the scratch registers as R112 writes them. -/
def runSync (s : State) : State :=
  let e := syncWindow (clk s) s.params.n s.params.gap
  match e.result with
  | .found j => { s with work := { s.work with idx := e.idx, run := e.run, syncFound := true, syncIdx := j } }
  | .notFound => { s with work := { s.work with idx := e.idx, run := e.run, syncFound := false, syncIdx := 0 } }

/-- What follows P_SYNC (R115, R181). -/
def afterSync (s : State) : State :=
  if s.work.syncFound then { s with phase := .extract } else raise .syncFail s

/-- SYNC: the scan (R112) and the transfer out of P_SYNC (R181). -/
def execSync (s : State) : Outcome := whenLegal s (.next (afterSync (runSync s)))

end Sys2Proof.Machine
end

