-- ==== Sys2Proof/Machine/Iterate.lean ====
section
/-! DEFINITION. The operation ITERATE (R180 to R193), and reset (R230). -/

namespace Sys2Proof.Machine

/-- ITERATE(S, CW) of R182, with its early exits. -/
def iterate (s : State) : State :=
  let s1 := runSync (acceptStart s)
  if s1.work.syncFound then
    let s2 := runExtract s1.work.syncIdx { s1 with phase := .extract }
    if !s2.work.eofFound || decide (s2.work.nbits < 21) then raise .incomplete s2
    else
      let s3 := runDecode { s2 with phase := .decode }
      let s4 := runAssemble { s3 with phase := .assemble }
      if !s4.work.valValid then raise .unrecognized s4
      else if s4.work.val.toNat < 1 then raise .zeroDiscard s4
      else runFilter s4.work.val { s4 with phase := .filter }
  else raise .syncFail s1

/-- ITERATE: one whole iteration, accepted only while busy = 0; a start while busy changes nothing (R188). -/
def execIterate (s : State) : Outcome := whenLegal s (.next (if s.busy then s else iterate s))

/-- RESET (R230, R232): every register takes its reset value (R37).  The parameters stay (R10).  CW holds
whatever the Sampler has or has not yet written (R231): a window written for the next iteration stays in
use, and one that an aborted iteration was reading is used up (R236, log entry 5).  The cut of the model stays. -/
def resetRegisters (s : State) : State :=
  { State.reset with
    params := s.params
    cw := s.cw
    cwStale := s.cwStale || s.busy
    cwEpoch := s.cwEpoch
    cut := s.cut }

/-- RESET. -/
def execReset (s : State) : Outcome := whenLegal s (.next (resetRegisters s))

end Sys2Proof.Machine
end

