-- ==== Sys2Proof/Syntax.lean ====
section
/-! DEFINITION. The operations of CORE and the segment groups DECODE tells apart: one constructor for
each row of the opcode table (R98, R101). -/

namespace Sys2Proof

/-- One constructor for each row of the opcode table.  The first seven are the operations (format OP):
they have no operand bits, their operands are registers (R98, log entry 13).  The others are the
applications of DECODE to one segment group (format GROUP7): a group that carries the pattern of a
row of the pattern ROM, or a group that no row has, which is then the operand. -/
inductive Instr where
  | reset
  | sync
  | extract
  | decode
  | assemble
  | filter
  | iterate
  | row0
  | row1
  | row2
  | row3
  | row4
  | row5
  | row6
  | row7
  | row8
  | row9
  | row10
  | row11
  | row12
  | unrecognized (g : Group)
deriving DecidableEq, Repr

end Sys2Proof
end

