-- ==== Sys2Proof/Machine/Dispatch.lean ====
section
/-! DEFINITION. One arm for each constructor of Instr, each a direct call of its meaning. -/

namespace Sys2Proof.Machine

def exec (i : Instr) (s : State) : Host.Outcome State Fault Refusal :=
  match i with
  | .reset => Sys2Proof.Machine.execReset s
  | .sync => Sys2Proof.Machine.execSync s
  | .extract => Sys2Proof.Machine.execExtract s
  | .decode => Sys2Proof.Machine.execDecode s
  | .assemble => Sys2Proof.Machine.execAssemble s
  | .filter => Sys2Proof.Machine.execFilter s
  | .iterate => Sys2Proof.Machine.execIterate s
  | .row0 => Sys2Proof.Machine.execRow0 s
  | .row1 => Sys2Proof.Machine.execRow1 s
  | .row2 => Sys2Proof.Machine.execRow2 s
  | .row3 => Sys2Proof.Machine.execRow3 s
  | .row4 => Sys2Proof.Machine.execRow4 s
  | .row5 => Sys2Proof.Machine.execRow5 s
  | .row6 => Sys2Proof.Machine.execRow6 s
  | .row7 => Sys2Proof.Machine.execRow7 s
  | .row8 => Sys2Proof.Machine.execRow8 s
  | .row9 => Sys2Proof.Machine.execRow9 s
  | .row10 => Sys2Proof.Machine.execRow10 s
  | .row11 => Sys2Proof.Machine.execRow11 s
  | .row12 => Sys2Proof.Machine.execRow12 s
  | .unrecognized g => Sys2Proof.Machine.execUnrecognized g s

end Sys2Proof.Machine
end

