-- ==== Sys2Proof/Decode.lean ====
section
/-! DEFINITION. From words to instructions and back (R99, R101): the phase codes of the operations, the
segment groups by the first-match rule over the pattern table, the words of the opcode table's
numbering, and the encoder written from the same tables. -/

namespace Sys2Proof

/-- Why a word is no instruction. -/
inductive DecodeError where
  /-- Phase code 7, "not used, never entered" (R99). -/
  | unusedPhaseCode
  /-- The group matches a row beyond row 12, which no admissible table has (R92). -/
  | noSuchRow
deriving DecidableEq, Repr

/-- The operation of a phase code, as the OP rows of the opcode table give it (R101): code 0 is the phase
RESET leaves CORE in, code 6 the phase ITERATE ends in, the others the phase the operation runs in. -/
def decodeOp (code : BitVec 3) : Except DecodeError Instr :=
  match code.toNat with
  | 0 => .ok .reset
  | 1 => .ok .sync
  | 2 => .ok .extract
  | 3 => .ok .decode
  | 4 => .ok .assemble
  | 5 => .ok .filter
  | 6 => .ok .iterate
  | _ => .error .unusedPhaseCode

/-- The instruction of table row r. -/
def rowInstr (r : Nat) : Except DecodeError Instr :=
  match r with
  | 0 => .ok .row0
  | 1 => .ok .row1
  | 2 => .ok .row2
  | 3 => .ok .row3
  | 4 => .ok .row4
  | 5 => .ok .row5
  | 6 => .ok .row6
  | 7 => .ok .row7
  | 8 => .ok .row8
  | 9 => .ok .row9
  | 10 => .ok .row10
  | 11 => .ok .row11
  | 12 => .ok .row12
  | _ => .error .noSuchRow

/-- The instruction of a segment group: the first row that matches, else unrecognized (R96, R97, R101). -/
def decodeGroup (t : Table) (g : Group) : Except DecodeError Instr :=
  match Machine.firstMatch t g with
  | some r => rowInstr r
  | none => .ok (.unrecognized g)

/-- The instruction of a word under the pattern table t. -/
def decode (t : Table) : Word → Except DecodeError Instr
  | .op code => decodeOp code
  | .group g => decodeGroup t g

/-- The word of table row r: its pattern. -/
def encodeRow (t : Table) (r : Nat) : Option Word :=
  (Machine.romRow t r).map fun row => .group row.pattern

/-- The word of an instruction under the pattern table t (none where the table has no such row). -/
def encode (t : Table) : Instr → Option Word
  | .reset => some (.op 0b000#3)
  | .sync => some (.op 0b001#3)
  | .extract => some (.op 0b010#3)
  | .decode => some (.op 0b011#3)
  | .assemble => some (.op 0b100#3)
  | .filter => some (.op 0b101#3)
  | .iterate => some (.op 0b110#3)
  | .row0 => encodeRow t 0
  | .row1 => encodeRow t 1
  | .row2 => encodeRow t 2
  | .row3 => encodeRow t 3
  | .row4 => encodeRow t 4
  | .row5 => encodeRow t 5
  | .row6 => encodeRow t 6
  | .row7 => encodeRow t 7
  | .row8 => encodeRow t 8
  | .row9 => encodeRow t 9
  | .row10 => encodeRow t 10
  | .row11 => encodeRow t 11
  | .row12 => encodeRow t 12
  | .unrecognized g => some (.group g)

/-- The word that w stands for in a space of nbits bits (log entry 10).  A space of 3 bits is that of
the OP rows, a space of 7 bits that of the GROUP7 rows.  In any other space (the table's rows padded to
a whole byte) the two formats overlap: the seven phase codes are read as operations and every
other 7-bit number as a segment group. -/
def tableWord (nbits w : Nat) : Option Word :=
  if nbits = 3 then (if w < 8 then some (.op (BitVec.ofNat 3 w)) else none)
  else if nbits = 7 then (if w < 128 then some (.group (BitVec.ofNat 7 w)) else none)
  else if w < 7 then some (.op (BitVec.ofNat 3 w))
  else if w < 128 then some (.group (BitVec.ofNat 7 w))
  else none

/-- The instruction of a word of the opcode table, whose GROUP7 rows are those of DEFAULT_TABLE (R101). -/
def decodeTableWord (nbits w : Nat) : Option Instr :=
  match tableWord nbits w with
  | some word =>
    match decode Machine.defaultTable word with
    | .ok i => some i
    | .error _ => none
  | none => none

end Sys2Proof
end

