-- ==== Sys2Proof/Machine/Fetch.lean ====
section
/-! DEFINITION. What the sequencer runs next (R181), and the state in which it runs a given word next. -/

namespace Sys2Proof.Machine

/-- What the next step does. -/
inductive Fetched where
  /-- It runs the operation of this word. -/
  | word (w : Word)
  /-- It accepts start: the clearing of R34, P_IDLE or P_DONE to P_SYNC. -/
  | accept
  /-- It waits for start, holding all its state (R187, R214). -/
  | wait
deriving DecidableEq, Repr

/-- In P_IDLE and P_DONE only an accepted start moves CORE on (R181, R214); start is accepted only while
busy = 0 (R186). -/
def fetchWaiting (s : State) : Fetched :=
  if s.start && !s.busy then (if s.cut = .iteration then .word (.op 0b110#3) else .accept) else .wait

/-- In P_DECODE the groups are decoded, all three or the one whose turn it is (R182). -/
def fetchDecode (s : State) : Fetched :=
  if s.cut = .group then .word (.group (groupOf s.work.sr s.group)) else .word (.op 0b011#3)

/-- The operation is the one of the phase (R24); reset comes before everything (R181, R230). -/
def fetch (s : State) : Fetched :=
  if s.rst then .word (.op 0b000#3)
  else
    match s.phase with
    | .idle => fetchWaiting s
    | .sync => .word (.op 0b001#3)
    | .extract => .word (.op 0b010#3)
    | .decode => fetchDecode s
    | .assemble => .word (.op 0b100#3)
    | .filter => .word (.op 0b101#3)
    | .done => fetchWaiting s

/-- CORE busy in phase p under the given cut.  A busy CORE has a window in use, so a used-up one is replaced,
and its entries are free values (R236, log entry 24). -/
def busyIn (p : Phase) (c : StepCut) (s : State) : State :=
  { freshWindow s with rst := false, phase := p, busy := true, done := false, cut := c }

/-- CORE busy in phase p, each operation a step of its own. -/
def inPhase (p : Phase) (s : State) : State := busyIn p .operation s

/-- P_FILTER is entered only with a candidate in val (R181): where there is none, the smallest one (log
entry 9). -/
def withCandidate (s : State) : State :=
  if candidateLegal s.work.val then s else { s with work := { s.work with valValid := true, val := 1 } }

/-- CORE waiting, with start raised and ITERATE one step. -/
def withStart (s : State) : State :=
  { s with rst := false, start := true, busy := false, cut := .iteration,
           phase := if s.phase = .done then .done else .idle }

/-- CORE in P_DECODE at group 0, each group a step of its own, and group 0 of the stream is g (R86: bits 20
to 14). -/
def withGroup (g : Group) (s : State) : State :=
  { busyIn .decode .group s with
    group := 0
    work := { s.work with sr := (s.work.sr &&& 0x3FFF#21) ||| (g.setWidth 21 <<< 14) } }

/-- The state in which the next step runs the word. -/
def presentWord (w : Word) (s : State) : State :=
  match w with
  | .op code =>
    match code.toNat with
    | 0 => { s with rst := true }
    | 1 => inPhase .sync s
    | 2 => inPhase .extract s
    | 3 => inPhase .decode s
    | 4 => inPhase .assemble s
    | 5 => withCandidate (inPhase .filter s)
    | 6 => withStart s
    | _ => s
  | .group g => withGroup g s

end Sys2Proof.Machine
end

