-- ==== Sys2Proof/Machine/Step.lean ====
section
/-! DEFINITION. One step of CORE: reset, waiting, the acceptance of start, or the operation of the phase. -/

namespace Sys2Proof.Machine

/-- One step.  The inputs rst and start are seen by this step alone (log entry 8). -/
def step (s : State) : Host.Outcome State Fault Refusal :=
  match fetch s with
  | .wait => whenLegal s (.next (takeInputs s))
  | .accept => whenLegal s (.next (acceptStart (takeInputs s)))
  | .word w =>
    match decode s.params.table w with
    | .ok i => exec i (takeInputs s)
    | .error _ => .refused .undecodable

/-- s with the word of the opcode table presented, so that the next step runs it (log entry 9). -/
def State.withFetchWord (s : State) (nbits w : Nat) : State :=
  match tableWord nbits w with
  | some word => presentWord word s
  | none => s

end Sys2Proof.Machine
end

