-- ==== Sys2Proof/Machine/Environment.lean ====
section
/-! DEFINITION. What the outside may do to CORE between two steps (R36, R187, R189): the Sampler writes CW
while busy = 0 and raises start, the platform asserts rst.  CORE itself performs none of these. -/

namespace Sys2Proof.Machine

/-- Entry i of the present window holds v; a used-up window is dropped first (R53). -/
def writeEntry (i : Nat) (v : Sample) (s : State) : State :=
  let f := freshWindow s
  { f with cw := insertCell i (v.setWidth 8) f.cw }

/-- MemWrite(CW, i, v) of the Sampler (R53): only while busy = 0, only below N. -/
def samplerWrite (i : Nat) (v : Sample) (s : State) : Outcome :=
  if s.busy then .refused .cwWriteWhileBusy
  else if i < s.params.n then .next (writeEntry i v s)
  else .refused .cwIndexOutOfRange

/-- The Sampler's writes of a whole window, entry i first (R187). -/
def fillFrom (i : Nat) : List Sample → State → State
  | [], s => s
  | v :: rest, s => fillFrom (i + 1) rest (writeEntry i v s)

/-- The Sampler raises start (R187). -/
def raiseStart (s : State) : State := { s with start := true }

/-- The platform asserts rst (R230). -/
def assertReset (s : State) : State := { s with rst := true }

/-- A window of n entries in the notation of R82: CLK and DAT read as binary numerals of n digits, index 0
leftmost. -/
def windowOf (n clkBits datBits : Nat) : List Sample :=
  (List.range n).map fun i =>
    BitVec.ofBool (datBits.testBit (n - 1 - i)) ++ BitVec.ofBool (clkBits.testBit (n - 1 - i))

end Sys2Proof.Machine
end

