-- ==== Sys2Proof/Safety.lean ====
section
/-! DEFINITION. The terms claims are stated in: the low runs, falling edges and gaps of the closed forms (R113,
R125), the invariant of every reachable state (R22 to R32, R183), the phase transfers of R181, and
the filter fed with a sequence of values (R168). -/

namespace Sys2Proof.Machine

/-- a..b is a low run of a window of n entries: a maximal set of consecutive clock-low entries (R19, R113). -/
def IsLowRun (clk : Nat → Bool) (n a b : Nat) : Prop :=
  a ≤ b ∧ b < n ∧ (∀ i, a ≤ i → i ≤ b → clk i = false)
    ∧ (a = 0 ∨ clk (a - 1) = true) ∧ (b + 1 = n ∨ clk (b + 1) = true)

/-- a..b is the first low run of at least gap entries (R113). -/
def IsFirstIdle (clk : Nat → Bool) (n gap a b : Nat) : Prop :=
  IsLowRun clk n a b ∧ gap ≤ b - a + 1
    ∧ ∀ a' b', IsLowRun clk n a' b' → gap ≤ b' - a' + 1 → a ≤ a'

/-- The gap entries that end at q are all low, and all of them are above s (R125). -/
def IsGapAt (clk : Nat → Bool) (gap s q : Nat) : Prop :=
  s + gap ≤ q ∧ ∀ i, q < i + gap → i ≤ q → clk i = false

/-- q is the least index of the window at which a gap above s ends (R125). -/
def IsFirstGap (clk : Nat → Bool) (n gap s q : Nat) : Prop :=
  q < n ∧ IsGapAt clk gap s q ∧ ∀ q', q' < q → ¬ IsGapAt clk gap s q'

/-- E of R125: the falling edges at the indices s+1 to q, in rising order. -/
def edgesIn (clk : Nat → Bool) (s q : Nat) : List Nat :=
  (List.range' (s + 1) (q - s)).filter (fallingEdge clk)

/-- The stream holds the data bits of the first 21 edges, and 0 above them (R27, R125). -/
def IsStreamOf (dat : Nat → Bool) (edges : List Nat) (sr : Stream) (nbits : Nat) : Prop :=
  nbits = min 21 edges.length
    ∧ (∀ k, k < nbits → streamBit sr k = dat (edges.getD k 0))
    ∧ (∀ k, nbits ≤ k → k < 21 → streamBit sr k = false)

/-- Row r is the first row of the table with the group's pattern (R136). -/
def IsFirstRow (t : Table) (g : Group) (r : Nat) (row : Row) : Prop :=
  romRow t r = some row ∧ row.pattern = g
    ∧ ∀ r' row', r' < r → romRow t r' = some row' → row'.pattern ≠ g

/-- No row of the table has the group's pattern (R96). -/
def NoRowHas (t : Table) (g : Group) : Prop := ∀ r row, romRow t r = some row → row.pattern ≠ g

/-- R23: the first two invariants of the stability state and the bounds of R21. -/
abbrev stabilityInv (stab : Nat) (S : Stability) : Prop :=
  (S.candValid = false → S.count = 0 ∧ S.cand = 0)
    ∧ (S.candValid = true → 1 ≤ S.count ∧ S.count ≤ stab ∧ 1 ≤ S.cand.toNat ∧ S.cand.toNat ≤ 999)
    ∧ (S.lcValid = false → S.lc = 0)
    ∧ (S.lcValid = true → 1 ≤ S.lc.toNat ∧ S.lc.toNat ≤ 999)

/-- R164: lc = cand holds throughout Stable. -/
abbrev stableIsCommitted (stab : Nat) (S : Stability) : Prop :=
  filterState stab S = .stable → S.lcValid = true ∧ S.lc = S.cand

/-- A value register holds 0 while its valid bit is 0 (R22), and its bound otherwise (R29). -/
abbrev digitInv (valid : Bool) (d : Digit) : Prop := (valid = false → d = 0) ∧ d.toNat ≤ 9

/-- R22, R25 to R30: bounds of the working registers, and 0 where a valid bit is 0. -/
abbrev workInv (p : Params) (w : Working) : Prop :=
  w.idx < p.n ∧ w.run ≤ p.gap
    ∧ w.syncIdx < p.n ∧ (w.syncFound = false → w.syncIdx = 0)
    ∧ w.nbits ≤ 21 ∧ (∀ k, k < 21 → w.nbits ≤ k → streamBit w.sr k = false)
    ∧ w.eofIdx < p.n ∧ (w.eofFound = false → w.eofIdx = 0)
    ∧ digitInv w.digValid.d0 w.dig.d0 ∧ digitInv w.digValid.d1 w.dig.d1 ∧ digitInv w.digValid.d2 w.dig.d2
    ∧ w.val.toNat ≤ 999 ∧ (w.valValid = false → w.val = 0)

/-- sr, nbits, eof_found, eof_idx are cleared. -/
abbrev frameCleared (w : Working) : Prop :=
  w.sr = 0 ∧ w.nbits = 0 ∧ w.eofFound = false ∧ w.eofIdx = 0

/-- dig_valid and dig of group k are cleared. -/
abbrev digitCleared (w : Working) (k : Fin 3) : Prop :=
  tripleGet w.digValid k = false ∧ tripleGet w.dig k = 0

/-- dig_valid and dig of all groups are cleared. -/
abbrev digitsCleared (w : Working) : Prop := ∀ k, digitCleared w k

/-- val_valid and val are cleared. -/
abbrev valCleared (w : Working) : Prop := w.valValid = false ∧ w.val = 0

/-- dig_valid[k] and dig[k] hold DECODE of group k of the stream (R29, R137). -/
abbrev digitDecoded (t : Table) (w : Working) (k : Fin 3) : Prop :=
  tripleGet w.digValid k = digitValid (decodeDigit t (groupOf w.sr k))
    ∧ tripleGet w.dig k = digitValue (decodeDigit t (groupOf w.sr k))

/-- All three digits hold DECODE of their groups. -/
abbrev digitsDecoded (t : Table) (w : Working) : Prop := ∀ k, digitDecoded t w k

/-- The frame is complete and its digits are as P_DECODE leaves them. -/
abbrev frameDecoded (s : State) : Prop :=
  s.work.syncFound = true ∧ frameComplete s.work = true ∧ digitsDecoded s.params.table s.work

/-- A frame of recognized digits, assembled. -/
abbrev frameAssembled (s : State) : Prop :=
  frameDecoded s ∧ allRecognized s.work.digValid = true
    ∧ s.work.valValid = true ∧ s.work.val = assembledValue s.work.dig

/-- What each phase before P_DONE has done and not yet done (R181, R182, R34). -/
abbrev phaseInv (s : State) : Prop :=
  (s.phase = .idle → s.work = Working.cleared ∧ s.stability = Stability.none ∧ s.status = .none)
    ∧ (s.phase = .sync → s.work = Working.cleared)
    ∧ (s.phase = .extract →
        s.work.syncFound = true ∧ frameCleared s.work ∧ digitsCleared s.work ∧ valCleared s.work)
    ∧ (s.phase = .decode → s.work.syncFound = true ∧ frameComplete s.work = true ∧ valCleared s.work
        ∧ ∀ k : Fin 3, if k < s.group then digitDecoded s.params.table s.work k else digitCleared s.work k)
    ∧ (s.phase = .assemble → frameDecoded s ∧ valCleared s.work)
    ∧ (s.phase = .filter → frameAssembled s ∧ 1 ≤ s.work.val.toNat)

/-- R183: what each outcome leaves in the working registers and the commit output at done. -/
abbrev outcomeInv (s : State) : Prop :=
  s.status ≠ .none
    ∧ (s.status = .syncFail → s.work.syncFound = false ∧ frameCleared s.work ∧ digitsCleared s.work
        ∧ valCleared s.work ∧ s.commit = false)
    ∧ (s.status = .incomplete → s.work.syncFound = true ∧ frameComplete s.work = false
        ∧ digitsCleared s.work ∧ valCleared s.work ∧ s.commit = false)
    ∧ (s.status = .unrecognized → frameDecoded s ∧ allRecognized s.work.digValid = false
        ∧ valCleared s.work ∧ s.commit = false)
    ∧ (s.status = .zeroDiscard → frameAssembled s ∧ s.work.val = 0 ∧ s.commit = false)
    ∧ (s.status = .accepted → frameAssembled s ∧ 1 ≤ s.work.val.toNat
        ∧ s.stability.candValid = true ∧ s.stability.cand = s.work.val)

/-- CORE is busy in the five working phases. -/
def Phase.isBusy : Phase → Bool
  | .idle => false
  | .sync => true
  | .extract => true
  | .decode => true
  | .assemble => true
  | .filter => true
  | .done => false

/-- R31, R32: the handshake and the commit output. -/
abbrev handshakeInv (s : State) : Prop :=
  s.busy = s.phase.isBusy ∧ s.done = decide (s.phase = .done)
    ∧ (s.commit = true → s.phase = .done ∧ s.status = .accepted ∧ s.stability.lcValid = true
        ∧ s.commitValue = s.stability.lc)
    ∧ (s.commit = false → s.commitValue = 0)

/-- The invariant of every reachable state: legal parameters (R11), the canonical form of CW, a window in
use while busy, and the invariants above. -/
abbrev State.Inv (s : State) : Prop :=
  paramsLegal s.params = true
    ∧ s.cw.wf = true
    ∧ (s.busy = true → s.cwStale = false)
    ∧ (s.phase ≠ .decode → s.group = 0)
    ∧ stabilityInv s.params.stab s.stability
    ∧ stableIsCommitted s.params.stab s.stability
    ∧ workInv s.params s.work
    ∧ handshakeInv s
    ∧ phaseInv s
    ∧ (s.phase = .done → outcomeInv s)

/-- The transfers of control of R181 other than reset, where start is accepted in a step of its own: from one
phase to another, with the status an early exit or the end writes. -/
def phaseTransfer : Phase → Phase → Option Status → Bool
  | .idle, .sync, none => true
  | .sync, .extract, none => true
  | .sync, .done, some .syncFail => true
  | .extract, .decode, none => true
  | .extract, .done, some .incomplete => true
  | .decode, .assemble, none => true
  | .assemble, .done, some .unrecognized => true
  | .assemble, .done, some .zeroDiscard => true
  | .assemble, .filter, none => true
  | .filter, .done, some .accepted => true
  | .done, .sync, none => true
  | _, _, _ => false

/-- FILTER fed with a sequence of candidates from the state S: the results in order, and the state after. -/
def filterFeed (stab : Nat) : Stability → List Value → List FilterResult × Stability
  | S, [] => ([], S)
  | S, v :: rest =>
    let r := filterStep stab S v
    let f := filterFeed stab r.1 rest
    (r.2 :: f.1, f.2)

/-- A step from a state that meets the invariant is safe when it answers a next state (R184, R208). -/
def SafeStep (s : State) : Prop := ∃ t, step s = .next t

end Sys2Proof.Machine
end

