-- ==== Sys2Proof/WellFormed.lean ====
section
/-! DEFINITION. Which instruction terms the encoding admits (R96, R97, R101): a table row that an earlier
row shadows is never the source of a result, and an unrecognized group is one that no row has. -/

namespace Sys2Proof

/-- Row r is in the table and no earlier row has its pattern (R97). -/
def rowNotShadowed (t : Table) (r : Nat) : Bool :=
  match Machine.romRow t r with
  | some row => Machine.firstMatch t row.pattern == some r
  | none => false

/-- An instruction the encoding can express under the pattern table t. -/
def Instr.wellFormed (t : Table) : Instr → Bool
  | .reset => true
  | .sync => true
  | .extract => true
  | .decode => true
  | .assemble => true
  | .filter => true
  | .iterate => true
  | .row0 => rowNotShadowed t 0
  | .row1 => rowNotShadowed t 1
  | .row2 => rowNotShadowed t 2
  | .row3 => rowNotShadowed t 3
  | .row4 => rowNotShadowed t 4
  | .row5 => rowNotShadowed t 5
  | .row6 => rowNotShadowed t 6
  | .row7 => rowNotShadowed t 7
  | .row8 => rowNotShadowed t 8
  | .row9 => rowNotShadowed t 9
  | .row10 => rowNotShadowed t 10
  | .row11 => rowNotShadowed t 11
  | .row12 => rowNotShadowed t 12
  | .unrecognized g => Machine.firstMatch t g == none

end Sys2Proof
end

