-- ==== Sys2Proof/Certificates/Slice0/Obligations.lean ====
section
/-! DEFINITION. The statements about CORE that are to be proved, from the numbered rules of the spec. -/

open Sys2Proof Sys2Proof.Machine

/-! ## Reset -/

/-- R231 (and R37, R10, R53): RESET completes in every state of a legal machine and gives every register its
reset value; the parameters, the ROM among them, and the cells of CW are as before, and where no iteration was
running every entry still reads as the Sampler has or has not written it; nothing happens then until
start. -/
def Obligations.ResetGivesEveryRegisterItsResetValue : Prop :=
  ∀ s : State, paramsLegal s.params = true → ∃ t, exec .reset s = .next t
    ∧ t.phase = .idle ∧ t.busy = false ∧ t.done = false ∧ t.status = .none
    ∧ t.commit = false ∧ t.commitValue = 0
    ∧ t.stability.candValid = false ∧ t.stability.cand = 0 ∧ t.stability.count = 0
    ∧ t.stability.lcValid = false ∧ t.stability.lc = 0
    ∧ t.work.idx = 0 ∧ t.work.run = 0 ∧ t.work.syncFound = false ∧ t.work.syncIdx = 0
    ∧ t.work.sr = 0 ∧ t.work.nbits = 0 ∧ t.work.eofFound = false ∧ t.work.eofIdx = 0
    ∧ (∀ k, tripleGet t.work.digValid k = false ∧ tripleGet t.work.dig k = 0)
    ∧ t.work.valValid = false ∧ t.work.val = 0
    ∧ t.params = s.params ∧ t.cw = s.cw
    ∧ (s.busy = false → ∀ i, sampleAt t i = sampleAt s i)
    ∧ step t = .next t

/-- R230, R37: the state after reset is what RESET gives from it.  Its parameters are the defaults of R11,
the model's choice of log entry 1. -/
def Obligations.ResetStateIsAFixedPointOfReset : Prop :=
  exec .reset State.reset = .next State.reset
    ∧ State.reset.params.n = 100000 ∧ State.reset.params.gap = 1000 ∧ State.reset.params.stab = 10
    ∧ State.reset.params.table = defaultTable ∧ paramsLegal State.reset.params = true

/-- R232: rst aborts an iteration in any phase: no done, no status, no commit, and the stability state is reset
with everything else. -/
def Obligations.RstAbortsAnyPhase : Prop :=
  ∀ s : State, paramsLegal s.params = true → s.rst = true → ∃ t, step s = .next t
    ∧ exec .reset (takeInputs s) = .next t
    ∧ t.phase = .idle ∧ t.busy = false ∧ t.done = false ∧ t.status = .none
    ∧ t.commit = false ∧ t.commitValue = 0
    ∧ t.stability = Stability.none ∧ t.work = Working.cleared

/-! ## SYNC -/

/-- R113, R114: where a..b is the first low run of at least GAP entries, SYNC completes with Found(b), GAP - 1
≤ b ≤ N - 1, idx = b and run = GAP, and P_EXTRACT next (R181).  Where no low run has GAP entries, it
answers NotFound, with idx = N - 1 and run the length of the low run that ends there, and the iteration
ends with SyncFail (R115, R204).  Nothing else changes. -/
def Obligations.SyncFollowsItsClosedForm : Prop :=
  ∀ s : State, paramsLegal s.params = true →
    (∀ a b, IsFirstIdle (clk s) s.params.n s.params.gap a b →
      s.params.gap - 1 ≤ b ∧ b ≤ s.params.n - 1
        ∧ exec .sync s = .next { s with
            work := { s.work with syncFound := true, syncIdx := b, idx := b, run := s.params.gap }
            phase := .extract })
    ∧ ((∀ a b, IsLowRun (clk s) s.params.n a b → b - a + 1 < s.params.gap) →
      ∃ r, r < s.params.gap ∧ r ≤ s.params.n
        ∧ (∀ i, s.params.n ≤ i + r → i < s.params.n → clk s i = false)
        ∧ (r < s.params.n → clk s (s.params.n - 1 - r) = true)
        ∧ exec .sync s = .next { s with
            work := { s.work with syncFound := false, syncIdx := 0, idx := s.params.n - 1, run := r }
            phase := .done, busy := false, done := true, status := .syncFail
            commit := false, commitValue := 0, group := 0, cwStale := true })

/-- R116 (i), R110: the data line has no influence on SYNC: with any other window that has the same clock
levels it does the same. -/
def Obligations.SyncIgnoresTheDataLine : Prop :=
  ∀ (s : State) (m : Memory), paramsLegal s.params = true →
    (∀ i, i < s.params.n → clk { s with cw := m } i = clk s i) →
    ∃ t, exec .sync s = .next t ∧ exec .sync { s with cw := m } = .next { t with cw := m }

/-! ## EXTRACT -/

/-- R124, R125, R126: where q is the least index at which GAP low samples above the start index end, EXTRACT
completes with Eof(q), start + GAP ≤ q ≤ N - 1, and the data bits of the first 21 falling edges up to
q.  Where there is no such index it answers Incomplete, with the bits of the first 21 falling edges of
the window above the start index.  With Eof and 21 bits P_DECODE is next (R181), else the iteration
ends with Incomplete (R127, R204).  Nothing else changes. -/
def Obligations.ExtractFollowsItsClosedForm : Prop :=
  ∀ s : State, paramsLegal s.params = true → s.work.syncIdx < s.params.n →
    (∀ q, IsFirstGap (clk s) s.params.n s.params.gap s.work.syncIdx q →
      s.work.syncIdx + s.params.gap ≤ q ∧ q ≤ s.params.n - 1
        ∧ ∃ sr nb, IsStreamOf (dat s) (edgesIn (clk s) s.work.syncIdx q) sr nb
          ∧ (nb = 21 → exec .extract s = .next { s with
              work := { s.work with sr := sr, nbits := nb, eofFound := true, eofIdx := q,
                                    idx := q, run := s.params.gap }
              phase := .decode, group := 0 })
          ∧ (nb < 21 → exec .extract s = .next { s with
              work := { s.work with sr := sr, nbits := nb, eofFound := true, eofIdx := q,
                                    idx := q, run := s.params.gap }
              phase := .done, busy := false, done := true, status := .incomplete
              commit := false, commitValue := 0, group := 0, cwStale := true }))
    ∧ ((∀ q, q < s.params.n → ¬ IsGapAt (clk s) s.params.gap s.work.syncIdx q) →
      ∃ sr nb r, r < s.params.gap
        ∧ IsStreamOf (dat s) (edgesIn (clk s) s.work.syncIdx (s.params.n - 1)) sr nb
        ∧ exec .extract s = .next { s with
            work := { s.work with
              sr := sr, nbits := nb, eofFound := false, eofIdx := 0, run := r
              idx := if s.work.syncIdx + 1 = s.params.n then s.work.idx else s.params.n - 1 }
            phase := .done, busy := false, done := true, status := .incomplete
            commit := false, commitValue := 0, group := 0, cwStale := true })

/-- R120 (U10): a start index above N - 1 is refused. -/
def Obligations.ExtractRefusesAStartOutsideTheWindow : Prop :=
  ∀ s : State, paramsLegal s.params = true → s.params.n ≤ s.work.syncIdx →
    exec .extract s = .refused .extractStartOutOfRange

/-- R128: dat is read only at falling-edge samples: with any other window that has the same clock levels, and
the same data bit at every falling edge above the start index, EXTRACT does the same. -/
def Obligations.ExtractReadsDataAtFallingEdgesOnly : Prop :=
  ∀ (s : State) (m : Memory), paramsLegal s.params = true → s.work.syncIdx < s.params.n →
    (∀ i, i < s.params.n → clk { s with cw := m } i = clk s i) →
    (∀ i, s.work.syncIdx < i → i < s.params.n → fallingEdge (clk s) i = true →
      dat { s with cw := m } i = dat s i) →
    ∃ t, exec .extract s = .next t ∧ exec .extract { s with cw := m } = .next { t with cw := m }

/-- R131: GAP = 1 is legal; the first clock-low sample after the start index ends extraction, nbits is at
most 1 and no frame is complete, and every iteration ends ST_SYNC_FAIL or ST_INCOMPLETE. -/
def Obligations.GapOneNeverCompletesAFrame : Prop :=
  (∀ p : Params, paramsLegal p = true → paramsLegal { p with gap := 1 } = true)
    ∧ (∀ s : State, paramsLegal s.params = true → s.params.gap = 1 → s.work.syncIdx < s.params.n →
        ∃ t, exec .extract s = .next t ∧ t.work.nbits ≤ 1 ∧ frameComplete t.work = false
          ∧ ∀ p, s.work.syncIdx < p → p < s.params.n → clk s p = false →
              (∀ i, s.work.syncIdx < i → i < p → clk s i = true) →
              t.work.eofFound = true ∧ t.work.eofIdx = p)
    ∧ ∀ s : State, paramsLegal s.params = true → s.params.gap = 1 → s.busy = false →
        ∃ t, exec .iterate s = .next t ∧ t.work.nbits ≤ 1 ∧ frameComplete t.work = false
          ∧ (t.status = .syncFail ∨ t.status = .incomplete)

/-! ## DECODE -/

/-- R136, R137, R142, R181: DECODE completes, writes for each of the three groups the value of the first row
with the group's pattern, or the unrecognized sentinel where no row has it, and nothing else;
P_ASSEMBLE is next. -/
def Obligations.DecodeWritesTheFirstMatchOfEachGroup : Prop :=
  ∀ s : State, paramsLegal s.params = true → ∃ valid digits,
    exec .decode s = .next { s with
      work := { s.work with digValid := valid, dig := digits }, phase := .assemble, group := 0 }
    ∧ ∀ k : Fin 3,
      (∀ r row, IsFirstRow s.params.table (groupOf s.work.sr k) r row →
        tripleGet valid k = true ∧ tripleGet digits k = row.value)
      ∧ (NoRowHas s.params.table (groupOf s.work.sr k) →
        tripleGet valid k = false ∧ tripleGet digits k = 0)

/-- R95: the complete decode map of DEFAULT_TABLE over all 128 patterns, with the row each digit comes from. -/
def Obligations.DefaultTableDecodeMap : Prop :=
  ∀ g : Group, (decodeDigit defaultTable g, firstMatch defaultTable g) =
    (if g = 0x00#7 then (.digit 0, some 12)
     else if g = 0x30#7 then (.digit 1, some 1)
     else if g = 0x31#7 then (.digit 1, some 11)
     else if g = 0x33#7 then (.digit 4, some 4)
     else if g = 0x5B#7 then (.digit 5, some 5)
     else if g = 0x5F#7 then (.digit 6, some 6)
     else if g = 0x6D#7 then (.digit 2, some 2)
     else if g = 0x70#7 then (.digit 7, some 7)
     else if g = 0x79#7 then (.digit 3, some 3)
     else if g = 0x7B#7 then (.digit 9, some 9)
     else if g = 0x7E#7 then (.digit 0, some 0)
     else if g = 0x7F#7 then (.digit 8, some 8)
     else (.unrecognized, none))

/-- R93: DECODE does not read the blank flag: two tables that differ in it alone are equally admissible, have
the same first matches and the same digits, and DECODE of a frame does the same with either. -/
def Obligations.BlankFlagHasNoEffect : Prop :=
  ∀ (t1 t2 : Table), t1.map (fun row => (row.pattern, row.value)) = t2.map (fun row => (row.pattern, row.value)) →
    tableLegal t1 = tableLegal t2
      ∧ (∀ g, firstMatch t1 g = firstMatch t2 g ∧ decodeDigit t1 g = decodeDigit t2 g)
      ∧ ∀ s t : State, s.params.table = t1 → exec .decode s = .next t →
          exec .decode { s with params := { s.params with table := t2 } }
            = .next { t with params := { s.params with table := t2 } }

/-- R139: the all-zero group decodes to Digit(0) under every admissible table, unless an earlier row has the
all-zero pattern; then that row's value is returned. -/
def Obligations.AllZeroGroupDecodesToZero : Prop :=
  ∀ t : Table, tableLegal t = true →
    ((∀ r row, r < 12 → romRow t r = some row → row.pattern ≠ 0) → decodeDigit t 0 = .digit 0)
    ∧ (∀ r row, IsFirstRow t 0 r row → decodeDigit t 0 = .digit row.value)

/-- R136, R97, R140: the group of table row r (row0 to row12) completes: the digit of the group whose turn
it is holds the value of the first row with that pattern, row r or the earlier one that shadows it;
the loop over the groups goes on (R182); nothing else changes. -/
def Obligations.RowGroupsDecodeByFirstMatch : Prop :=
  ∀ (s : State) (r : Nat) (i : Instr), paramsLegal s.params = true → rowInstr r = .ok i →
    ∃ row r0 row0, romRow s.params.table r = some row
      ∧ IsFirstRow s.params.table row.pattern r0 row0 ∧ r0 ≤ r
      ∧ exec i s = .next { s with
          work := { s.work with digValid := tripleSet s.work.digValid s.group true,
                                dig := tripleSet s.work.dig s.group row0.value }
          phase := if s.group = 2 then .assemble else .decode
          group := if s.group = 2 then 0 else s.group + 1 }

/-- R96, R137: a group that no row has completes with the unrecognized sentinel for the group whose turn it
is: valid bit 0 and digit 0; nothing else changes but the loop over the groups. -/
def Obligations.UnrecognizedGroupClearsItsDigit : Prop :=
  ∀ (s : State) (g : Group), paramsLegal s.params = true → NoRowHas s.params.table g →
    exec (.unrecognized g) s = .next { s with
      work := { s.work with digValid := tripleSet s.work.digValid s.group false,
                            dig := tripleSet s.work.dig s.group 0 }
      phase := if s.group = 2 then .assemble else .decode
      group := if s.group = 2 then 0 else s.group + 1 }

/-! ## Words -/

/-- R97: a row whose pattern an earlier row has is never the source of a result: it is the first match of no
group, and no word decodes to it; in DEFAULT_TABLE row 10 is shadowed by row 8, and 1111111 is 8. -/
def Obligations.ShadowedRowIsNeverDecoded : Prop :=
  (∀ (t : Table) (r r' : Nat) (row row' : Row), r' < r →
      romRow t r = some row → romRow t r' = some row' → row'.pattern = row.pattern →
      (∀ g row2, ¬ IsFirstRow t g r row2)
        ∧ ∀ i, rowInstr r = .ok i → ∀ w, decode t w ≠ .ok i)
    ∧ (romRow defaultTable 10).map (·.pattern) = (romRow defaultTable 8).map (·.pattern)
    ∧ decodeDigit defaultTable 0b1111111#7 = .digit 8

/-- R101: decoding the word of a well-formed instruction gives it back, for every constructor and every
pattern table. -/
def Obligations.DecodeOfEncodeIsTheInstruction : Prop :=
  ∀ (t : Table) (i : Instr), i.wellFormed t = true → ∃ w, encode t i = some w ∧ decode t w = .ok i

/-- R101: a word that decodes, decodes to a well-formed instruction whose word it is. -/
def Obligations.DecodedInstructionsAreWellFormed : Prop :=
  ∀ (t : Table) (w : Word) (i : Instr), decode t w = .ok i →
    i.wellFormed t = true ∧ encode t i = some w

/-- R99, R101: words written out from the opcode table decode to the instructions they stand for; phase code
7 is rejected, and 1111111 is row 8, never row 10. -/
def Obligations.OpcodeTableWordsDecode : Prop :=
  decodeTableWord 3 0b000 = some .reset ∧ decodeTableWord 3 0b001 = some .sync
    ∧ decodeTableWord 3 0b010 = some .extract ∧ decodeTableWord 3 0b011 = some .decode
    ∧ decodeTableWord 3 0b100 = some .assemble ∧ decodeTableWord 3 0b101 = some .filter
    ∧ decodeTableWord 3 0b110 = some .iterate ∧ decodeTableWord 3 0b111 = none
    ∧ decodeTableWord 7 0b1111110 = some .row0 ∧ decodeTableWord 7 0b1101101 = some .row2
    ∧ decodeTableWord 7 0b1111111 = some .row8 ∧ decodeTableWord 7 0b0110001 = some .row11
    ∧ decodeTableWord 7 0b0000000 = some .row12
    ∧ decodeTableWord 7 0b0110010 = some (.unrecognized 0b0110010#7)

/-- R91: the 12-bit ROM word of a row has the pattern in bits 11:5, the value in bits 4:1 and the flag in
bit 0, and holds the row. -/
def Obligations.RomWordHoldsTheRow : Prop :=
  ∀ row : Row, (romWord row).toNat = 32 * row.pattern.toNat + 2 * row.value.toNat + row.blank.toNat
    ∧ rowOfRomWord (romWord row) = row

/-! ## ASSEMBLE -/

/-- R151, R152, R154: on a complete frame whose groups are recognized as v0, v1, v2, ASSEMBLE completes with
val = 100 v0 + 10 v1 + v2, at most 999; Value(0) ends the iteration with ZeroDiscard, any other value
goes on to P_FILTER. -/
def Obligations.AssembleSumsTheThreeDigits : Prop :=
  ∀ (s : State) (v0 v1 v2 : Digit), paramsLegal s.params = true → frameComplete s.work = true →
    decodeDigit s.params.table (groupOf s.work.sr 0) = .digit v0 →
    decodeDigit s.params.table (groupOf s.work.sr 1) = .digit v1 →
    decodeDigit s.params.table (groupOf s.work.sr 2) = .digit v2 →
    ∃ v : Value, v.toNat = 100 * v0.toNat + 10 * v1.toNat + v2.toNat ∧ v.toNat ≤ 999
      ∧ (1 ≤ v.toNat → exec .assemble s = .next { s with
          work := { s.work with digValid := ⟨true, true, true⟩, dig := ⟨v0, v1, v2⟩,
                                valValid := true, val := v }
          phase := .filter })
      ∧ (v = 0 → exec .assemble s = .next { s with
          work := { s.work with digValid := ⟨true, true, true⟩, dig := ⟨v0, v1, v2⟩,
                                valValid := true, val := 0 }
          phase := .done, busy := false, done := true, status := .zeroDiscard
          commit := false, commitValue := 0, group := 0, cwStale := true })

/-- R153, R152, R202: any single unrecognized group of a complete frame makes the value Invalid, val = 0 and
never a partial sum, whatever the other two digits, and ends the iteration with Unrecognized; dig_valid
and dig hold the result of DECODE for each of the three groups, so dig_valid tells which. -/
def Obligations.OneUnrecognizedDigitSpoilsTheFrame : Prop :=
  ∀ (s : State) (k : Fin 3), paramsLegal s.params = true → frameComplete s.work = true →
    decodeDigit s.params.table (groupOf s.work.sr k) = .unrecognized →
    ∃ valid digits, tripleGet valid k = false ∧ tripleGet digits k = 0
      ∧ (∀ k' : Fin 3,
          tripleGet valid k' = digitValid (decodeDigit s.params.table (groupOf s.work.sr k'))
            ∧ tripleGet digits k' = digitValue (decodeDigit s.params.table (groupOf s.work.sr k')))
      ∧ exec .assemble s = .next { s with
          work := { s.work with digValid := valid, dig := digits, valValid := false, val := 0 }
          phase := .done, busy := false, done := true, status := .unrecognized
          commit := false, commitValue := 0, group := 0, cwStale := true }

/-- R151, R155: on an incomplete frame ASSEMBLE answers Invalid without decoding, and the iteration ends
with Incomplete. -/
def Obligations.AssembleRejectsAnIncompleteFrame : Prop :=
  ∀ s : State, paramsLegal s.params = true → (s.work.eofFound = false ∨ s.work.nbits < 21) →
    exec .assemble s = .next { s with
      work := { s.work with valValid := false, val := 0 }
      phase := .done, busy := false, done := true, status := .incomplete
      commit := false, commitValue := 0, group := 0, cwStale := true }

/-- R150, R151: ASSEMBLE is a pure function of its operands sr, nbits, eof_found and TABLE.  Two states that
agree on these get the same val_valid, val, next phase and outcome, and the same dig_valid and dig where
the frame is complete; an incomplete frame leaves dig_valid and dig as they were.  So ASSEMBLE run again
on what it left leaves the same working registers. -/
def Obligations.AssembleIsPure : Prop :=
  (∀ s1 s2 : State, paramsLegal s1.params = true → paramsLegal s2.params = true →
      s1.params.table = s2.params.table → s1.work.sr = s2.work.sr → s1.work.nbits = s2.work.nbits →
      s1.work.eofFound = s2.work.eofFound →
      ∃ t1 t2, exec .assemble s1 = .next t1 ∧ exec .assemble s2 = .next t2
        ∧ t1.work.valValid = t2.work.valValid ∧ t1.work.val = t2.work.val
        ∧ t1.phase = t2.phase ∧ (t1.phase = .done → t1.status = t2.status)
        ∧ (frameComplete s1.work = true →
            t1.work.digValid = t2.work.digValid ∧ t1.work.dig = t2.work.dig)
        ∧ (frameComplete s1.work = false →
            t1.work.digValid = s1.work.digValid ∧ t1.work.dig = s1.work.dig
              ∧ t2.work.digValid = s2.work.digValid ∧ t2.work.dig = s2.work.dig))
    ∧ ∀ s t : State, exec .assemble s = .next t → ∃ u, exec .assemble t = .next u ∧ u.work = t.work

/-- R182, R155: ASSEMBLE after DECODE leaves the digits that DECODE wrote (log entry 12). -/
def Obligations.AssembleKeepsTheDecodedDigits : Prop :=
  ∀ s t : State, exec .decode s = .next t →
    ∃ u, exec .assemble t = .next u
      ∧ u.work.digValid = t.work.digValid ∧ u.work.dig = t.work.dig

/-! ## FILTER -/

/-- R162 (in the form of the table R163): every case of FILTER, the states read off the registers as R23 says,
with the commit output of R167 and the end of the iteration as ACCEPTED; the working registers, the
parameters and CW are as before. -/
def Obligations.FilterFollowsItsTransitionTable : Prop :=
  ∀ (s : State) (v : Value) (S : Stability), paramsLegal s.params = true →
    v = s.work.val → S = s.stability → 1 ≤ v.toNat → v.toNat ≤ 999 →
    let noCommit := fun S' : Stability => Host.Outcome.next (φ := Fault) (ρ := Refusal)
      { s with stability := S', status := .accepted, commit := false, commitValue := 0
               phase := .done, busy := false, done := true, group := 0, cwStale := true }
    let commits := fun S' : Stability => Host.Outcome.next (φ := Fault) (ρ := Refusal)
      { s with stability := S', status := .accepted, commit := true, commitValue := v
               phase := .done, busy := false, done := true, group := 0, cwStale := true }
    (S.candValid = false →
      exec .filter s = noCommit { S with candValid := true, cand := v, count := 1 })
    ∧ (S.candValid = true → S.count < s.params.stab → v ≠ S.cand →
      exec .filter s = noCommit { S with cand := v, count := 1 })
    ∧ (S.candValid = true → v = S.cand → S.count + 1 < s.params.stab →
      exec .filter s = noCommit { S with count := S.count + 1 })
    ∧ (S.candValid = true → v = S.cand → S.count + 1 = s.params.stab → (S.lcValid = false ∨ S.lc ≠ v) →
      exec .filter s = commits { S with count := s.params.stab, lcValid := true, lc := v })
    ∧ (S.candValid = true → v = S.cand → S.count + 1 = s.params.stab → S.lcValid = true → S.lc = v →
      exec .filter s = noCommit { S with count := s.params.stab })
    ∧ (S.candValid = true → S.count = s.params.stab → v ≠ S.cand →
      exec .filter s = noCommit { S with cand := v, count := 1 })
    ∧ (S.candValid = true → S.count = s.params.stab → v = S.cand →
      exec .filter s = noCommit S)
    ∧ (∃ t, exec .filter s = .next t ∧ t.stability.candValid = true
        ∧ (t.stability.count < s.params.stab → filterState s.params.stab t.stability = .accumulating)
        ∧ (t.stability.count = s.params.stab → filterState s.params.stab t.stability = .stable)
        ∧ (t.stability.count = 1 → filterState s.params.stab t.stability = .accumulating))

/-- R169 (f) (U7): FILTER refuses a value outside 1 to 999. -/
def Obligations.FilterRefusesValuesOutsideItsRange : Prop :=
  ∀ s : State, paramsLegal s.params = true → (s.work.val.toNat = 0 ∨ 999 < s.work.val.toNat) →
    exec .filter s = .refused .candidateOutOfRange

/-- R168, R164, R166: a new candidate fed m times from any state in which it is not the candidate gives
exactly one commit, at the STAB-th time, if it differs from the value last committed, and none
otherwise; fewer than STAB times give none. -/
def Obligations.RepeatedValueCommitsExactlyOnce : Prop :=
  ∀ (stab : Nat) (S : Stability) (v : Value) (m : Nat), 2 ≤ stab →
    (S.candValid = false ∨ S.cand ≠ v) →
    (m < stab → (filterFeed stab S (List.replicate m v)).1 = List.replicate m .noCommit)
    ∧ (stab ≤ m → (filterFeed stab S (List.replicate m v)).1 =
        List.replicate (stab - 1) .noCommit
          ++ (if S.lcValid = false ∨ S.lc ≠ v then .commit v else .noCommit)
          :: List.replicate (m - stab) .noCommit)

/-- R21, R36, R165, R204: the stability state is written only by reset, and by FILTER in an iteration whose
outcome is ACCEPTED. -/
def Obligations.OnlyAcceptedFramesReachTheFilter : Prop :=
  ∀ (i : Instr) (s t : State), exec i s = .next t → t.stability ≠ s.stability →
    i = .reset ∨ ((i = .filter ∨ i = .iterate) ∧ t.status = .accepted)

/-- R190, R164, R249: whenever FILTER or ITERATE ends with commit = 1, commit_value is the last committed
value now, is in 1 to 999, and differs from the value committed before. -/
def Obligations.CommitsAreNewCandidates : Prop :=
  ∀ (i : Instr) (s t : State), (i = .filter ∨ i = .iterate) → exec i s = .next t → t.done = true →
    s.busy = false ∨ i = .filter → t.commit = true →
    t.stability.lcValid = true ∧ t.commitValue = t.stability.lc ∧ sinkSees t = some t.commitValue
      ∧ 1 ≤ t.commitValue.toNat ∧ t.commitValue.toNat ≤ 999
      ∧ (s.stability.lcValid = true → s.stability.lc ≠ t.commitValue)

/-! ## ITERATE -/

/-- R182, R181, R252: ITERATE as one step reaches exactly the state that the accepted start and then the
phases one by one reach (in P_DECODE all groups in one step, or each group in a step), in at most 8
steps.  Where a step ends, and so the bound 8, is the model's choice (log entry 6). -/
def Obligations.IterateIsThePhasesInTurn : Prop :=
  ∀ s : State, paramsLegal s.params = true → s.rst = false → s.start = true → s.busy = false →
    (s.phase = .idle ∨ s.phase = .done) → s.cut ≠ .iteration →
    ∃ (k : Nat) (t : State), k ≤ 8 ∧ t.phase = .done
      ∧ exec .iterate (takeInputs s) = .next t ∧ Host.Core.run Sys2Proof.core k s = .next t

/-- R183, R204, R184: ITERATE completes in P_DONE with one of the five outcomes, each of which leaves in the
working registers what R183 says.  Unless SYNC failed, sr, nbits, eof_found and eof_idx are as EXTRACT
left them, run after SYNC from the accepted start.  The stability state is as before unless the outcome
is ACCEPTED, and then it is FILTER's. -/
def Obligations.IterateLeavesWhatItsOutcomeSays : Prop :=
  ∀ s : State, paramsLegal s.params = true → s.busy = false → ∃ t, exec .iterate s = .next t
    ∧ t.phase = .done ∧ t.busy = false ∧ t.done = true ∧ t.params = s.params
    ∧ outcomeInv t
    ∧ (t.status ≠ .syncFail → ∃ u e, exec .sync (acceptStart s) = .next u ∧ u.phase = .extract
        ∧ exec .extract u = .next e ∧ t.work.sr = e.work.sr ∧ t.work.nbits = e.work.nbits
        ∧ t.work.eofFound = e.work.eofFound ∧ t.work.eofIdx = e.work.eofIdx)
    ∧ (t.status ≠ .accepted → t.stability = s.stability ∧ t.commit = false ∧ t.commitValue = 0)
    ∧ (t.status = .accepted → t.stability = (filterStep s.params.stab s.stability t.work.val).1
        ∧ ((filterStep s.params.stab s.stability t.work.val).2 = .commit t.work.val →
            t.commit = true ∧ t.commitValue = t.work.val)
        ∧ ((filterStep s.params.stab s.stability t.work.val).2 = .noCommit →
            t.commit = false ∧ t.commitValue = 0))

/-- R188: start while busy = 1 is ignored: it changes nothing, and the step is the one without it. -/
def Obligations.StartWhileBusyIsIgnored : Prop :=
  ∀ s : State, s.busy = true → step s = step { s with start := false }
    ∧ (paramsLegal s.params = true → exec .iterate s = .next s)

/-- R35, R180: the stability state and the window decide an iteration's results; no other register of the
state before it has any influence. -/
def Obligations.IterationsShareOnlyTheStabilityState : Prop :=
  ∀ s1 s2 : State, paramsLegal s1.params = true → s1.params = s2.params → s1.stability = s2.stability →
    s1.busy = false → s2.busy = false →
    (∀ i, i < s1.params.n → sampleAt s1 i = sampleAt s2 i) →
    ∃ t1 t2, exec .iterate s1 = .next t1 ∧ exec .iterate s2 = .next t2
      ∧ t1.work = t2.work ∧ t1.stability = t2.stability ∧ t1.status = t2.status
      ∧ t1.commit = t2.commit ∧ t1.commitValue = t2.commitValue

/-- R207: the first failure in pipeline order is the one reported: SyncFail without an idle run whatever
else holds, then Incomplete without a gap or with fewer than 21 falling edges before it. -/
def Obligations.FirstFailureIsReported : Prop :=
  ∀ s : State, paramsLegal s.params = true → s.busy = false → ∃ t, exec .iterate s = .next t
    ∧ ((∀ a b, IsLowRun (clk s) s.params.n a b → b - a + 1 < s.params.gap) →
        t.status = .syncFail)
    ∧ (∀ a j, IsFirstIdle (clk s) s.params.n s.params.gap a j →
        t.work.syncFound = true ∧ t.work.syncIdx = j
        ∧ ((∀ q, q < s.params.n → ¬ IsGapAt (clk s) s.params.gap j q) →
            t.status = .incomplete ∧ t.work.eofFound = false)
        ∧ (∀ q, IsFirstGap (clk s) s.params.n s.params.gap j q →
            t.work.eofFound = true ∧ t.work.eofIdx = q
            ∧ ((edgesIn (clk s) j q).length < 21 → t.status = .incomplete)
            ∧ (21 ≤ (edgesIn (clk s) j q).length →
                t.status = .unrecognized ∨ t.status = .zeroDiscard ∨ t.status = .accepted)))

/-- R185, R151, R154, R203: a window with an idle run, at least 21 falling edges before the closing gap, and
bits that spell three recognized digits (R185 names 2, 4, 5), gives the assembled value, which is accepted
if it is at least 1 and discarded if it is 0. -/
def Obligations.FrameOnTheWireIsAssembled : Prop :=
  ∀ (s : State) (a j q : Nat) (sr : Stream) (nb : Nat) (v0 v1 v2 : Digit),
    paramsLegal s.params = true → s.busy = false →
    IsFirstIdle (clk s) s.params.n s.params.gap a j →
    IsFirstGap (clk s) s.params.n s.params.gap j q →
    21 ≤ (edgesIn (clk s) j q).length →
    IsStreamOf (dat s) (edgesIn (clk s) j q) sr nb →
    decodeDigit s.params.table (groupOf sr 0) = .digit v0 →
    decodeDigit s.params.table (groupOf sr 1) = .digit v1 →
    decodeDigit s.params.table (groupOf sr 2) = .digit v2 →
    ∃ t, exec .iterate s = .next t ∧ t.work.sr = sr ∧ t.work.nbits = 21
      ∧ t.work.syncIdx = j ∧ t.work.eofIdx = q ∧ t.work.dig = ⟨v0, v1, v2⟩ ∧ t.work.valValid = true
      ∧ t.work.val.toNat = 100 * v0.toNat + 10 * v1.toNat + v2.toNat
      ∧ (1 ≤ t.work.val.toNat → t.status = .accepted)
      ∧ (t.work.val.toNat = 0 → t.status = .zeroDiscard)

/-- R240: an iteration that ends ST_ACCEPTED or ST_ZERO_DISCARD needs N at least 2 GAP + 41, GAP at least 2,
and the waveform: a first idle run, 21 falling edges, and a closing gap after them. -/
def Obligations.CompleteFramesNeedTheWaveform : Prop :=
  ∀ s t : State, s.busy = false → exec .iterate s = .next t →
    (t.status = .accepted ∨ t.status = .zeroDiscard) →
    2 * s.params.gap + 41 ≤ s.params.n ∧ 2 ≤ s.params.gap
      ∧ ∃ a j q, IsFirstIdle (clk s) s.params.n s.params.gap a j
        ∧ clk s (j + 1) = true
        ∧ IsFirstGap (clk s) s.params.n s.params.gap j q
        ∧ 21 ≤ (edgesIn (clk s) j (q + 1 - s.params.gap)).length

/-! ## Outcomes -/

/-- R204: raise X writes the status, clears the commit output and ends the iteration; the stability state,
the working registers, the parameters and CW are as before.  (group and cwStale are the model's own
fields, log entries 5 and 7.)  R100: the code of each status; 6 and 7 are not used. -/
def Obligations.RaiseEndsTheIteration : Prop :=
  ∀ (x : EarlyOutcome) (s : State),
    raise x s = { s with status := x.status, commit := false, commitValue := 0
                         phase := .done, busy := false, done := true, group := 0, cwStale := true }
      ∧ Status.none.code = 0 ∧ Status.accepted.code = 5 ∧ (∀ st : Status, st.code.toNat ≤ 5)
      ∧ EarlyOutcome.syncFail.status.code = 1 ∧ EarlyOutcome.incomplete.status.code = 2
      ∧ EarlyOutcome.unrecognized.status.code = 3 ∧ EarlyOutcome.zeroDiscard.status.code = 4

/-! ## The capture window -/

/-- R53 (and R16): a write of the Sampler while busy = 0 is read back, every other entry reads as before (in a
new window: a free value, R236), the canonical form is kept, and no register changes. -/
def Obligations.SamplerWriteIsReadBack : Prop :=
  ∀ (s : State) (i : Nat) (v : Sample), s.busy = false → i < s.params.n →
    ∃ m e, samplerWrite i v s = .next { s with cw := m, cwStale := false, cwEpoch := e }
      ∧ (s.cw.wf = true → m.wf = true)
      ∧ sampleAt { s with cw := m, cwStale := false, cwEpoch := e } i = v
      ∧ ∀ k, k ≠ i →
        sampleAt { s with cw := m, cwStale := false, cwEpoch := e } k = sampleAt s k
        ∧ (s.cwStale = true →
          sampleAt { s with cw := m, cwStale := false, cwEpoch := e } k
            = Config.freeSample (s.cwEpoch + 1) k)

/-- R53, R241 (U8): a write of the Sampler while busy = 1, or above N - 1, is refused. -/
def Obligations.SamplerMayNotWriteABusyCore : Prop :=
  ∀ (s : State) (i : Nat) (v : Sample),
    (s.busy = true → samplerWrite i v s = .refused .cwWriteWhileBusy)
    ∧ (s.busy = false → s.params.n ≤ i → samplerWrite i v s = .refused .cwIndexOutOfRange)

/-- R53, R55, R10: no instruction writes a cell of CW, the ROM or a parameter; ITERATE too leaves every cell of
the window it reads as it is, which is a new one where the last was used up (log entry 5).  So every
entry reads as before, unless the instruction ends or aborts an iteration, which alone uses the window up:
then its entries have not been written since the last iteration and have no value (R236). -/
def Obligations.NoInstructionWritesMemoryOrParameters : Prop :=
  ∀ (i : Instr) (s t : State), exec i s = .next t →
    t.params = s.params
      ∧ (i ≠ .iterate ∨ s.cwStale = false ∨ s.busy = true → t.cw = s.cw)
      ∧ (i = .iterate → s.busy = false → t.cw = (freshWindow s).cw)
      ∧ (t.cwStale = false → ∀ a, sampleAt t a = sampleAt s a)
      ∧ (i ≠ .iterate → t.cwStale = s.cwStale → ∀ a, sampleAt t a = sampleAt s a)
      ∧ (t.cwStale = true → s.cwStale = true ∨ t.done = true ∨ (i = .reset ∧ s.busy = true))

/-- R236, U9, R33: no entry of a window that an iteration has used up keeps its value.  After ITERATE every
entry is a free value of the next window (log entry 4), and where the window is used up no instruction,
SYNC and EXTRACT among them, does anything else with other cells left in CW. -/
def Obligations.UsedUpWindowKeepsNoEntry : Prop :=
  (∀ s t : State, s.busy = false → exec .iterate s = .next t →
      t.cwEpoch = (if s.cwStale then s.cwEpoch + 1 else s.cwEpoch)
        ∧ ∀ a, sampleAt t a = Config.freeSample (t.cwEpoch + 1) a
          ∧ (a < t.params.n → memReadCW t a = .ok (Config.freeSample (t.cwEpoch + 1) a)))
    ∧ ∀ (i : Instr) (s t : State) (m : Memory), s.cwStale = true → exec i s = .next t →
        ∃ m', exec i { s with cw := m } = .next { t with cw := m' }

/-- R54: the content of CW is constant from the acceptance of start on while busy = 1: no cell changes, and
every entry reads as before. -/
def Obligations.WindowIsConstantWhileBusy : Prop :=
  ∀ s t : State, s.busy = true → step s = .next t →
    t.cw = s.cw ∧ (t.busy = true → ∀ i, sampleAt t i = sampleAt s i)

/-- R52, R56: MemRead(CW, i) answers the entry below N; MemRead(ROM, r) answers a row for 0 to 12 and none
above, under every admissible table.  That a read of CW above N - 1 is refused is the model's choice (log
entry 14): R52 only allows it. -/
def Obligations.MemReadAnswersInRangeAndRefusesAbove : Prop :=
  (∀ (s : State) (i : Nat), i < s.params.n → memReadCW s i = .ok (sampleAt s i))
    ∧ (∀ (s : State) (i : Nat), s.params.n ≤ i → memReadCW s i = .error .cwIndexOutOfRange)
    ∧ ∀ (t : Table) (r : Nat), tableLegal t = true → ((romRow t r).isSome = true ↔ r ≤ 12)

/-- R52: no operation of CORE reads an entry above N - 1: with any other window that has the same entries
below N, every instruction does the same, in every register. -/
def Obligations.EntriesAboveTheWindowHaveNoInfluence : Prop :=
  ∀ (i : Instr) (s t : State) (m : Memory),
    (∀ a, a < s.params.n → sampleAt { s with cw := m } a = sampleAt s a) → exec i s = .next t →
    ∃ m', exec i { s with cw := m } = .next { t with cw := m' }

/-! ## The step -/

/-- R24, R181: when the word the sequencer fetches decodes to instruction i, the step is exec of i with the
input pins taken; in the working phases that word is the phase code, in P_DECODE with one step for each
group the group whose turn it is, and with rst the word of RESET. -/
def Obligations.StepRunsTheDecodedInstruction : Prop :=
  (∀ (s : State) (w : Word) (i : Instr), fetch s = .word w → decode s.params.table w = .ok i →
      step s = exec i (takeInputs s))
    ∧ (∀ s : State, s.rst = true → fetch s = .word (.op 0))
    ∧ (∀ s : State, s.rst = false → s.phase.isBusy = true → (s.phase = .decode → s.cut ≠ .group) →
        fetch s = .word (.op s.phase.code))
    ∧ (∀ s : State, s.rst = false → s.phase = .decode → s.cut = .group →
        fetch s = .word (.group (groupOf s.work.sr s.group)))
    ∧ (∀ s : State, s.rst = false → (s.phase = .idle ∨ s.phase = .done) → s.start = true → s.busy = false →
        s.cut = .iteration → fetch s = .word (.op 6))

/-- R187, R214: without start CORE stays in P_IDLE or P_DONE, holding all its state. -/
def Obligations.CoreWaitsForStart : Prop :=
  ∀ s : State, paramsLegal s.params = true → s.rst = false → s.start = false →
    (s.phase = .idle ∨ s.phase = .done) → step s = .next s

/-- R34: the accepted start clears every working register and the commit output, sets busy, clears done and
goes to P_SYNC; status and the stability state are as before.  Every entry of CW reads as before, so that
where none has been written for this iteration all are free values (R236, U9). -/
def Obligations.AcceptedStartClearsTheIteration : Prop :=
  ∀ s : State, paramsLegal s.params = true → s.rst = false → s.start = true → s.busy = false →
    (s.phase = .idle ∨ s.phase = .done) → s.cut ≠ .iteration → ∃ m e t, step s = .next t
      ∧ t = { s with
          work := { idx := 0, run := 0, syncFound := false, syncIdx := 0, sr := 0, nbits := 0
                    eofFound := false, eofIdx := 0, digValid := ⟨false, false, false⟩, dig := ⟨0, 0, 0⟩
                    valValid := false, val := 0 }
          commit := false, commitValue := 0, busy := true, done := false, phase := .sync
          group := 0, start := false, cw := m, cwStale := false, cwEpoch := e }
      ∧ (∀ i, sampleAt t i = sampleAt s i)
      ∧ (s.cwStale = true → ∀ i, sampleAt t i = Config.freeSample (s.cwEpoch + 1) i)

/-- The model's presentation of a word (log entry 9): the very next step runs the instruction the opcode
table's word stands for. -/
def Obligations.PresentedWordRunsNext : Prop :=
  ∀ (s : State) (nbits w : Nat) (i : Instr), s.params.table = defaultTable →
    decodeTableWord nbits w = some i →
    step (s.withFetchWord nbits w) = exec i (takeInputs (s.withFetchWord nbits w))

/-- R181: where start is accepted in a step of its own, every step of a machine that meets the invariant
makes one of the transfers of the phase table, with the status the table gives it. -/
def Obligations.PhasesFollowTheTransferTable : Prop :=
  ∀ s : State, s.Inv → s.rst = false → s.cut = .operation → (s.start = true ∨ s.busy = true) →
    ∃ t, step s = .next t
      ∧ phaseTransfer s.phase t.phase (if t.phase = .done then some t.status else none) = true

/-- R36: each operation writes the working registers of its own row of the table, and no other. -/
def Obligations.OperationsWriteTheirOwnRegisters : Prop :=
  ∀ s t : State,
    (exec .sync s = .next t →
      t.work = { s.work with idx := t.work.idx, run := t.work.run,
                             syncFound := t.work.syncFound, syncIdx := t.work.syncIdx })
    ∧ (exec .extract s = .next t →
      t.work = { s.work with idx := t.work.idx, run := t.work.run, sr := t.work.sr, nbits := t.work.nbits,
                             eofFound := t.work.eofFound, eofIdx := t.work.eofIdx })
    ∧ (exec .decode s = .next t →
      t.work = { s.work with digValid := t.work.digValid, dig := t.work.dig })
    ∧ (exec .assemble s = .next t →
      t.work = { s.work with digValid := t.work.digValid, dig := t.work.dig,
                             valValid := t.work.valValid, val := t.work.val })
    ∧ (exec .filter s = .next t → t.work = s.work)

/-- R11 (U1, U2, U6): a configuration outside the legal ranges is refused, whatever the instruction. -/
def Obligations.IllegalParametersAreRefused : Prop :=
  ∀ (i : Instr) (s : State),
    (s.params.n = 0 ∨ s.params.gap = 0 ∨ s.params.stab < 2 ∨ tableLegal s.params.table = false) →
    exec i s = .refused .paramsOutOfRange

/-! ## Invariants -/

/-- R231, R23: the state after reset meets the invariant. -/
def Obligations.ResetStateMeetsTheInvariant : Prop := State.reset.Inv

/-- R22 to R32, R164, R183: every step from a state that meets the invariant answers a state that meets
it. -/
def Obligations.EveryStepKeepsTheInvariant : Prop := ∀ s t : State, s.Inv → step s = .next t → t.Inv

/-- R184, R208: no outcome stops CORE and no fault or refusal is reached: every state that meets the
invariant has a next state. -/
def Obligations.NothingStopsALegalMachine : Prop := ∀ s : State, s.Inv → SafeStep s

/-- R187, R230: what the outside may do to CORE keeps the invariant: the Sampler's writes, raising start, and
asserting rst. -/
def Obligations.EnvironmentKeepsTheInvariant : Prop :=
  ∀ s : State, s.Inv →
    (raiseStart s).Inv ∧ (assertReset s).Inv
      ∧ ∀ (i : Nat) (v : Sample) (t : State), samplerWrite i v s = .next t → t.Inv

/-- R13: the index and count registers fit the widths AW, RW, KW and 5 bits in every state that meets the
invariant. -/
def Obligations.RegistersFitTheirWidths : Prop :=
  ∀ s : State, s.Inv →
    s.work.idx < 2 ^ s.params.addrWidth ∧ s.work.syncIdx < 2 ^ s.params.addrWidth
      ∧ s.work.eofIdx < 2 ^ s.params.addrWidth
      ∧ s.work.run < 2 ^ s.params.runWidth ∧ s.stability.count < 2 ^ s.params.countWidth
      ∧ s.work.nbits < 2 ^ 5
end

