-- ==== Sys2Proof/Laws/Rom.lean ====
section
/-! SUPPORT. The pattern table: what the first-match rule finds (R136), the decoder's and the encoder's rows,
and the facts about an admissible table (R92) that the machine needs. -/

namespace Sys2Proof.Machine

@[simp] theorem romRow_nil (r : Nat) : romRow [] r = none := rfl
@[simp] theorem romRow_cons_zero (row : Row) (t : Table) : romRow (row :: t) 0 = some row := rfl
@[simp] theorem romRow_cons_succ (row : Row) (t : Table) (r : Nat) :
    romRow (row :: t) (r + 1) = romRow t r := rfl

theorem rowMatches_iff (row : Row) (g : Group) : rowMatches row g = true ↔ row.pattern = g := by
  simp [rowMatches]

/-- The first-match rule finds row r exactly when row r is the first with the group's pattern. -/
theorem firstMatch_eq_some_iff (t : Table) (g : Group) (r : Nat) :
    firstMatch t g = some r ↔ ∃ row, IsFirstRow t g r row := by
  induction t generalizing r with
  | nil => simp [firstMatch, IsFirstRow]
  | cons row rest ih =>
    unfold firstMatch
    split
    · next h =>
      rw [rowMatches_iff] at h
      constructor
      · rintro ⟨⟩
        exact ⟨row, rfl, h, fun r' _ hr => absurd hr (Nat.not_lt_zero r')⟩
      · rintro ⟨row', hrow, -, hfirst⟩
        cases r with
        | zero => rfl
        | succ r => exact absurd h (hfirst 0 row (Nat.succ_pos r) rfl)
    · next h =>
      rw [rowMatches_iff] at h
      cases r with
      | zero =>
        constructor
        · intro h0
          simp at h0
        · rintro ⟨row', hrow, hp, -⟩
          simp only [romRow_cons_zero, Option.some.injEq] at hrow
          subst hrow
          exact absurd hp h
      | succ r =>
        have hmap : (firstMatch rest g).map (· + 1) = some (r + 1) ↔ firstMatch rest g = some r := by
          cases firstMatch rest g <;> simp
        rw [hmap, ih]
        constructor
        · rintro ⟨row', hrow, hp, hfirst⟩
          refine ⟨row', hrow, hp, ?_⟩
          intro r' row'' hlt hr
          cases r' with
          | zero =>
            simp only [romRow_cons_zero, Option.some.injEq] at hr
            exact hr ▸ h
          | succ r' => exact hfirst r' row'' (by omega) hr
        · rintro ⟨row', hrow, hp, hfirst⟩
          exact ⟨row', hrow, hp, fun r' row'' hlt hr => hfirst (r' + 1) row'' (by omega) hr⟩

/-- The first-match rule finds no row exactly when no row has the group's pattern. -/
theorem firstMatch_eq_none_iff (t : Table) (g : Group) : firstMatch t g = none ↔ NoRowHas t g := by
  induction t with
  | nil => simp [firstMatch, NoRowHas]
  | cons row rest ih =>
    unfold firstMatch
    split
    · next h =>
      rw [rowMatches_iff] at h
      constructor
      · intro h0
        simp at h0
      · intro hno
        exact absurd h (hno 0 row rfl)
    · next h =>
      rw [rowMatches_iff] at h
      rw [Option.map_eq_none_iff, ih]
      constructor
      · intro hno r row' hr
        cases r with
        | zero =>
          simp only [romRow_cons_zero, Option.some.injEq] at hr
          exact hr ▸ h
        | succ r => exact hno r row' hr
      · exact fun hno r row' hr => hno (r + 1) row' hr

/-- DECODE is the value of the row the first-match rule finds. -/
theorem decodeDigit_eq (t : Table) (g : Group) :
    decodeDigit t g = match (firstMatch t g).bind (romRow t) with
      | some row => .digit row.value
      | none => .unrecognized := by
  induction t with
  | nil => rfl
  | cons row rest ih =>
    unfold decodeDigit firstMatch
    split
    · rfl
    · rw [ih]
      cases firstMatch rest g <;> rfl

theorem decodeDigit_of_firstRow {t : Table} {g : Group} {r : Nat} {row : Row} (h : IsFirstRow t g r row) :
    decodeDigit t g = .digit row.value := by
  have hm := (firstMatch_eq_some_iff t g r).2 ⟨row, h⟩
  simp [decodeDigit_eq, hm, h.1]

theorem decodeDigit_of_noRow {t : Table} {g : Group} (h : NoRowHas t g) :
    decodeDigit t g = .unrecognized := by
  simp [decodeDigit_eq, (firstMatch_eq_none_iff t g).2 h]

/-- A row with the group's pattern makes some row the first with it, no later one. -/
theorem exists_firstRow {t : Table} {r : Nat} {row : Row} (h : romRow t r = some row) :
    ∃ r0 row0, IsFirstRow t row.pattern r0 row0 ∧ r0 ≤ r := by
  cases hm : firstMatch t row.pattern with
  | none => exact absurd rfl ((firstMatch_eq_none_iff _ _).1 hm r row h)
  | some r0 =>
    obtain ⟨row0, h0⟩ := (firstMatch_eq_some_iff _ _ _).1 hm
    refine ⟨r0, row0, h0, ?_⟩
    by_contra hlt
    exact h0.2.2 r row (by omega) h rfl

/-- Every digit DECODE answers is the value of a row. -/
theorem decodeDigit_digit {t : Table} {g : Group} {v : Digit} (h : decodeDigit t g = .digit v) :
    ∃ r row, romRow t r = some row ∧ row.value = v := by
  rw [decodeDigit_eq] at h
  cases hm : firstMatch t g with
  | none => simp [hm] at h
  | some r =>
    obtain ⟨row, hr⟩ := (firstMatch_eq_some_iff _ _ _).1 hm
    simp [hm, hr.1] at h
    exact ⟨r, row, hr.1, h⟩

theorem romRow_mem {t : Table} {r : Nat} {row : Row} (h : romRow t r = some row) : row ∈ t :=
  List.mem_of_getElem? h

theorem romRow_lt {t : Table} {r : Nat} {row : Row} (h : romRow t r = some row) : r < t.length := by
  obtain ⟨hlt, -⟩ := List.getElem?_eq_some_iff.1 h
  exact hlt

/-! Admissible tables and legal parameters. -/

theorem tableLegal_length {t : Table} (h : tableLegal t = true) : t.length = 13 := by
  simp only [tableLegal, Bool.and_eq_true, beq_iff_eq] at h
  exact h.1.1.1

theorem tableLegal_value {t : Table} (h : tableLegal t = true) {row : Row} (hr : row ∈ t) :
    row.value.toNat ≤ 9 := by
  simp only [tableLegal, Bool.and_eq_true, List.all_eq_true, decide_eq_true_eq] at h
  exact h.1.1.2 row hr

/-- Every digit DECODE answers under an admissible table is at most 9. -/
theorem decodeDigit_le {t : Table} (h : tableLegal t = true) {g : Group} {v : Digit}
    (hd : decodeDigit t g = .digit v) : v.toNat ≤ 9 := by
  obtain ⟨r, row, hr, rfl⟩ := decodeDigit_digit hd
  exact tableLegal_value h (romRow_mem hr)

theorem romRow_isSome {t : Table} (h : tableLegal t = true) {r : Nat} (hr : r < 13) :
    ∃ row, romRow t r = some row := by
  have hlt : r < t.length := by
    rw [tableLegal_length h]
    exact hr
  exact ⟨t[r], List.getElem?_eq_getElem hlt⟩

theorem paramsLegal_iff (p : Params) :
    paramsLegal p = true ↔ 1 ≤ p.n ∧ 1 ≤ p.gap ∧ 2 ≤ p.stab ∧ tableLegal p.table = true := by
  simp [paramsLegal, and_assoc]

theorem paramsLegal_n {p : Params} (h : paramsLegal p = true) : 1 ≤ p.n := ((paramsLegal_iff p).1 h).1
theorem paramsLegal_gap {p : Params} (h : paramsLegal p = true) : 1 ≤ p.gap := ((paramsLegal_iff p).1 h).2.1
theorem paramsLegal_stab {p : Params} (h : paramsLegal p = true) : 2 ≤ p.stab :=
  ((paramsLegal_iff p).1 h).2.2.1
theorem paramsLegal_table {p : Params} (h : paramsLegal p = true) : tableLegal p.table = true :=
  ((paramsLegal_iff p).1 h).2.2.2

end Sys2Proof.Machine

namespace Sys2Proof

/-- The instruction of a row determines the row. -/
theorem rowInstr_inj {r r' : Nat} {i : Instr} (h : rowInstr r = .ok i) (h' : rowInstr r' = .ok i) : r = r' := by
  unfold rowInstr at h h'
  split at h <;> cases h <;> split at h' <;> first | rfl | cases h'

/-- A row number with an instruction is at most 12. -/
theorem rowInstr_lt {r : Nat} {i : Instr} (h : rowInstr r = .ok i) : r < 13 := by
  unfold rowInstr at h
  split at h <;> first | omega | cases h

end Sys2Proof
end

