-- ==== Sys2Proof/Laws/Scan.lean ====
section
/-! SUPPORT. Everything the two scans of the capture window can do (R113, R125): one lemma for each scan, proved
by induction over the entries left. -/

namespace Sys2Proof.Machine

/-- The low samples counted by run: the last run entries below i are low and the one before them, if there
is one, is high (or the scan began there, at index lo). -/
def LowTail (clk : Nat → Bool) (lo i run : Nat) : Prop :=
  lo + run ≤ i ∧ (∀ k, i ≤ k + run → k < i → clk k = false) ∧ (lo + run < i → clk (i - run - 1) = true)

theorem LowTail.high {clk : Nat → Bool} {lo i run : Nat} (h : LowTail clk lo i run) (hc : clk i = true) :
    LowTail clk lo (i + 1) 0 := by
  refine ⟨by have := h.1; omega, fun k h1 h2 => by omega, fun _ => ?_⟩
  simpa using hc

theorem LowTail.low {clk : Nat → Bool} {lo i run : Nat} (h : LowTail clk lo i run) (hc : clk i = false) :
    LowTail clk lo (i + 1) (run + 1) := by
  refine ⟨by have := h.1; omega, fun k h1 h2 => ?_, fun hlt => ?_⟩
  · rcases Nat.lt_or_ge k i with hk | hk
    · exact h.2.1 k (by omega) hk
    · have : k = i := by omega
      rw [this]
      exact hc
  · have := h.2.2 (by omega)
    have e : i + 1 - (run + 1) - 1 = i - run - 1 := by omega
    rw [e]
    exact this

/-- No gap above lo (counted from lo on) ends below i. -/
def NoGapBelow (clk : Nat → Bool) (gap lo i : Nat) : Prop :=
  ∀ q, q < i → ¬ (lo + gap ≤ q + 1 ∧ ∀ k, q < k + gap → k ≤ q → clk k = false)

theorem NoGapBelow.succ {clk : Nat → Bool} {gap lo i run : Nat} (hno : NoGapBelow clk gap lo i)
    (ht : LowTail clk lo (i + 1) run) (hrun : run < gap) : NoGapBelow clk gap lo (i + 1) := by
  intro q hq hgap
  rcases Nat.lt_or_ge q i with h | h
  · exact hno q h hgap
  · have hqi : q = i := by omega
    subst hqi
    have hlt : lo + run < q + 1 := by omega
    have hhigh := ht.2.2 hlt
    have hlow := hgap.2 (q + 1 - run - 1) (by omega) (by omega)
    rw [hlow] at hhigh
    exact absurd hhigh (by decide)

/-- The while loop of R112: it ends at the last low sample of the run, or at the last entry. -/
theorem advanceLow_spec (clk : Nat → Bool) (left j : Nat) :
    j ≤ advanceLow clk left j ∧ advanceLow clk left j ≤ j + left
      ∧ (∀ i, j < i → i ≤ advanceLow clk left j → clk i = false)
      ∧ (advanceLow clk left j = j + left ∨ clk (advanceLow clk left j + 1) = true) := by
  induction left generalizing j with
  | zero =>
    refine ⟨Nat.le_refl _, Nat.le_refl _, fun i h1 h2 => ?_, Or.inl rfl⟩
    simp only [advanceLow] at h2
    omega
  | succ left ih =>
    unfold advanceLow
    split
    · next h => exact ⟨Nat.le_refl _, by omega, fun i h1 h2 => by omega, Or.inr h⟩
    · next h =>
      obtain ⟨h1, h2, h3, h4⟩ := ih (j + 1)
      refine ⟨by omega, by omega, fun i hi1 hi2 => ?_, ?_⟩
      · rcases Nat.lt_or_ge (j + 1) i with hlt | hge
        · exact h3 i hlt hi2
        · have : i = j + 1 := by omega
          subst this
          simpa using h
      · rcases h4 with h4 | h4
        · exact Or.inl (by omega)
        · exact Or.inr h4

/-- What SYNC's scan answers (R113, R114). -/
def SyncSays (clk : Nat → Bool) (n gap : Nat) (e : SyncEnd) : Prop :=
  (∃ a b, IsFirstIdle clk n gap a b ∧ e = ⟨.found b, b, gap⟩)
    ∨ (∃ r, r < gap ∧ LowTail clk 0 n r ∧ NoGapBelow clk gap 0 n ∧ e = ⟨.notFound, n - 1, r⟩)

theorem syncScan_spec (clk : Nat → Bool) {n gap : Nat} :
    ∀ left i run, i + left = n → LowTail clk 0 i run → run < gap → NoGapBelow clk gap 0 i →
      SyncSays clk n gap (syncScan clk gap left i run) := by
  intro left
  induction left with
  | zero =>
    intro i run hi ht hrun hno
    have hin : i = n := by omega
    subst hin
    exact Or.inr ⟨run, hrun, ht, hno, rfl⟩
  | succ left ih =>
    intro i run hi ht hrun hno
    cases hc : clk i with
    | true =>
      have ht' := ht.high hc
      have hstep : syncScan clk gap (left + 1) i run = syncScan clk gap left (i + 1) 0 := by
        have h0 : ¬ (0 = gap) := by omega
        simp only [syncScan, hc, if_true, if_neg h0]
      rw [hstep]
      exact ih (i + 1) 0 (by omega) ht' (by omega) (hno.succ ht' (by omega))
    | false =>
      have ht' := ht.low hc
      by_cases hg : run + 1 = gap
      · have hstep : syncScan clk gap (left + 1) i run
            = ⟨.found (advanceLow clk left i), advanceLow clk left i, gap⟩ := by
          simp [syncScan, hc, hg]
        rw [hstep]
        obtain ⟨h1, h2, h3, h4⟩ := advanceLow_spec clk left i
        have hrunle := ht.1
        refine Or.inl ⟨i - run, advanceLow clk left i, ⟨⟨by omega, by omega, ?_, ?_, ?_⟩, by omega, ?_⟩, rfl⟩
        · intro k hk1 hk2
          rcases Nat.lt_or_ge k (i + 1) with hk | hk
          · exact ht'.2.1 k (by omega) hk
          · exact h3 k (by omega) hk2
        · rcases Nat.lt_or_ge run i with hlt | hge
          · right
            exact ht.2.2 (by omega)
          · left
            omega
        · rcases h4 with h4 | h4
          · left
            omega
          · exact Or.inr h4
        · intro a' b' hrun' hlen
          have hle := hrun'.1
          by_contra hlt
          refine hno (a' + gap - 1) (by omega) ⟨by omega, fun k hk1 hk2 => ?_⟩
          exact hrun'.2.2.1 k (by omega) (by omega)
      · have hstep : syncScan clk gap (left + 1) i run = syncScan clk gap left (i + 1) (run + 1) := by
          simp [syncScan, hc, hg]
        rw [hstep]
        exact ih (i + 1) (run + 1) (by omega) ht' (by omega) (hno.succ ht' (by omega))

/-- SYNC(CW): the end of the first idle run, or not found. -/
theorem syncWindow_spec (clk : Nat → Bool) (n : Nat) {gap : Nat} (hgap : 1 ≤ gap) :
    SyncSays clk n gap (syncWindow clk n gap) :=
  syncScan_spec clk n 0 0 (by omega)
    ⟨by omega, fun k _ h => absurd h (Nat.not_lt_zero k), fun h => absurd h (Nat.lt_irrefl 0)⟩
    (by omega) (fun q h => absurd h (Nat.not_lt_zero q))

/-- The first idle run is one run only. -/
theorem IsFirstIdle.unique {clk : Nat → Bool} {n gap a b a' b' : Nat} (h : IsFirstIdle clk n gap a b)
    (h' : IsFirstIdle clk n gap a' b') : a = a' ∧ b = b' := by
  have haa : a = a' := Nat.le_antisymm (h.2.2 a' b' h'.1 h'.2.1) (h'.2.2 a b h.1 h.2.1)
  subst haa
  refine ⟨rfl, ?_⟩
  obtain ⟨h1, h2, h3, -, h5⟩ := h.1
  obtain ⟨h1', h2', h3', -, h5'⟩ := h'.1
  rcases Nat.lt_trichotomy b b' with hlt | heq | hgt
  · rcases h5 with h5 | h5
    · omega
    · have := h3' (b + 1) (by omega) (by omega)
      rw [this] at h5
      exact absurd h5 (by decide)
  · exact heq
  · rcases h5' with h5' | h5'
    · omega
    · have := h3 (b' + 1) (by omega) (by omega)
      rw [this] at h5'
      exact absurd h5' (by decide)

/-- An idle run holds a gap. -/
theorem IsLowRun.gap {clk : Nat → Bool} {n gap a b : Nat} (h : IsLowRun clk n a b) (hlen : gap ≤ b - a + 1)
    (hgap : 1 ≤ gap) : ¬ NoGapBelow clk gap 0 n := by
  intro hno
  obtain ⟨h1, h2, h3, -, -⟩ := h
  exact hno (a + gap - 1) (by omega) ⟨by omega, fun k hk1 hk2 => h3 k (by omega) (by omega)⟩

/-! The extractor's scan. -/

@[simp] theorem edgesIn_self (clk : Nat → Bool) (s : Nat) : edgesIn clk s s = [] := by
  simp [edgesIn]

/-- The edges up to p + 1 are those up to p, and p + 1 if it is one. -/
theorem edgesIn_succ (clk : Nat → Bool) {s p : Nat} (h : s ≤ p) :
    edgesIn clk s (p + 1) = edgesIn clk s p ++ (if fallingEdge clk (p + 1) then [p + 1] else []) := by
  have e : p + 1 - s = (p - s) + 1 := by omega
  unfold edgesIn
  rw [e, List.range'_concat, List.filter_append]
  congr 1
  have e2 : s + 1 + 1 * (p - s) = p + 1 := by omega
  rw [e2]
  simp [List.filter_cons]

theorem streamBit_write_same {sr : Stream} {k : Nat} (b : Bool) (hk : k < 21) :
    streamBit (streamWrite sr k b) k = b := by
  have h1 : 20 - k < 21 := by omega
  cases b <;> simp [streamBit, streamWrite, hk, h1]

theorem streamBit_write_other {sr : Stream} {k j : Nat} (b : Bool) (hk : k < 21) (hj : j ≠ k) :
    streamBit (streamWrite sr k b) j = streamBit sr j := by
  by_cases hj2 : j < 21
  · have h1 : 20 - j < 21 := by omega
    have h2 : 20 - k < 21 := by omega
    rcases Nat.lt_or_ge (20 - j) (20 - k) with h | h
    · cases b <;> simp [streamBit, streamWrite, hj2, h1, h]
    · have h3 : ¬ (20 - j < 20 - k) := by omega
      have h4 : ∃ d, 20 - j - (20 - k) = d + 1 := ⟨20 - j - (20 - k) - 1, by omega⟩
      obtain ⟨d, hd⟩ := h4
      cases b <;> simp [streamBit, streamWrite, hj2, h1, h3, hd]
  · simp [streamBit, hj2]

theorem isStreamOf_nil (dat : Nat → Bool) : IsStreamOf dat [] 0 0 :=
  ⟨rfl, fun k hk => absurd hk (Nat.not_lt_zero k), fun k _ _ => by simp [streamBit]⟩

/-- Appending the bit of one more edge, while there is room, keeps the stream that of the edges. -/
theorem isStreamOf_append {dat : Nat → Bool} {edges : List Nat} {a : ExtractAcc} (p : Nat)
    (h : IsStreamOf dat edges a.sr a.nbits) :
    IsStreamOf dat (edges ++ [p]) (appendBit a (dat p)).sr (appendBit a (dat p)).nbits := by
  obtain ⟨h1, h2, h3⟩ := h
  unfold appendBit
  split
  · next hroom =>
    have hlen : edges.length = a.nbits := by omega
    refine ⟨by simp; omega, fun k hk => ?_, fun k hk hk21 => ?_⟩
    · simp only at hk ⊢
      rcases Nat.lt_or_ge k a.nbits with hlt | hge
      · rw [streamBit_write_other _ hroom (by omega), h2 k hlt]
        congr 1
        simp only [List.getD_eq_getElem?_getD]
        rw [List.getElem?_append_left (by omega)]
      · have : k = a.nbits := by omega
        subst this
        rw [streamBit_write_same _ hroom]
        congr 1
        simp only [List.getD_eq_getElem?_getD]
        rw [List.getElem?_append_right (by omega), ← hlen]
        simp
    · simp only at hk ⊢
      rw [streamBit_write_other _ hroom (by omega)]
      exact h3 k (by omega) hk21
  · next hroom =>
    refine ⟨by simp; omega, fun k hk => ?_, h3⟩
    rw [h2 k hk]
    congr 1
    simp only [List.getD_eq_getElem?_getD]
    rw [List.getElem?_append_left (by omega)]

theorem appendBit_idx (a : ExtractAcc) (b : Bool) : (appendBit a b).idx = a.idx := by
  unfold appendBit
  split <;> rfl

/-- What EXTRACT's scan answers (R125, R126), from start index s, with the scan index at idx before it. -/
def ExtractSays (clk dat : Nat → Bool) (n gap s idx : Nat) (r : ExtractAcc × EndOfFrame) : Prop :=
  (∃ q, IsFirstGap clk n gap s q ∧ IsStreamOf dat (edgesIn clk s q) r.1.sr r.1.nbits
      ∧ r.1.idx = q ∧ r.1.run = gap ∧ r.2 = .eof q)
    ∨ ((∀ q, q < n → ¬ IsGapAt clk gap s q) ∧ IsStreamOf dat (edgesIn clk s (n - 1)) r.1.sr r.1.nbits
      ∧ r.1.idx = (if s + 1 < n then n - 1 else idx) ∧ r.1.run < gap ∧ r.2 = .incomplete)

theorem isGapAt_iff (clk : Nat → Bool) (gap s q : Nat) :
    IsGapAt clk gap s q ↔ (s + 1 + gap ≤ q + 1 ∧ ∀ k, q < k + gap → k ≤ q → clk k = false) := by
  unfold IsGapAt
  constructor
  · exact fun h => ⟨by omega, h.2⟩
  · exact fun h => ⟨by omega, h.2⟩

theorem extractScan_spec (clk dat : Nat → Bool) {n gap s idx : Nat} :
    ∀ left p a, p + left = n → s + 1 ≤ p → LowTail clk (s + 1) p a.run → a.run < gap →
      NoGapBelow clk gap (s + 1) p → IsStreamOf dat (edgesIn clk s (p - 1)) a.sr a.nbits →
      a.idx = (if s + 1 < p then p - 1 else idx) →
      ExtractSays clk dat n gap s idx (extractScan clk dat gap left p a) := by
  intro left
  induction left with
  | zero =>
    intro p a hp hsp ht hrun hno hst hidx
    have hpn : p = n := by omega
    subst hpn
    refine Or.inr ⟨fun q hq hg => hno q hq ((isGapAt_iff clk gap s q).1 hg), hst, hidx, hrun, rfl⟩
  | succ left ih =>
    intro p a hp hsp ht hrun hno hst hidx
    have hedge : edgesIn clk s p = edgesIn clk s (p - 1) ++ (if fallingEdge clk p then [p] else []) := by
      have := edgesIn_succ clk (s := s) (p := p - 1) (by omega)
      have e : p - 1 + 1 = p := by omega
      rwa [e] at this
    have hidx' : p = (if s + 1 < p + 1 then p + 1 - 1 else idx) := by
      rw [if_pos (by omega)]
      omega
    cases hc : clk p with
    | true =>
      have ht' := ht.high hc
      have hstep : extractScan clk dat gap (left + 1) p a
          = extractScan clk dat gap left (p + 1) { a with idx := p, run := 0 } := by
        simp only [extractScan, hc, if_true]
      rw [hstep]
      refine ih (p + 1) _ (by omega) (by omega) ht' (by simpa using by omega)
        (hno.succ ht' (by omega)) ?_ hidx'
      have e : p + 1 - 1 = p := by omega
      rw [e, hedge]
      simpa [fallingEdge, hc] using hst
    | false =>
      have ht' := ht.low hc
      have hb : IsStreamOf dat (edgesIn clk s p)
          (if fallingEdge clk p then appendBit a (dat p) else a).sr
          (if fallingEdge clk p then appendBit a (dat p) else a).nbits := by
        rw [hedge]
        cases hf : fallingEdge clk p with
        | true => simpa using isStreamOf_append p hst
        | false => simpa using hst
      by_cases hg : a.run + 1 = gap
      · have hstep : extractScan clk dat gap (left + 1) p a
            = ({ (if fallingEdge clk p then appendBit a (dat p) else a) with idx := p, run := a.run + 1 },
                .eof p) := by
          simp [extractScan, hc, hg]
        rw [hstep]
        have htl := ht.1
        refine Or.inl ⟨p, ⟨by omega, ⟨by omega, fun k hk1 hk2 => ?_⟩, fun q' hq' hgq => ?_⟩, hb, rfl, hg, rfl⟩
        · exact ht'.2.1 k (by omega) (by omega)
        · exact hno q' hq' ((isGapAt_iff clk gap s q').1 hgq)
      · have hstep : extractScan clk dat gap (left + 1) p a
            = extractScan clk dat gap left (p + 1)
                { (if fallingEdge clk p then appendBit a (dat p) else a) with idx := p, run := a.run + 1 } := by
          simp [extractScan, hc, hg]
        rw [hstep]
        refine ih (p + 1) _ (by omega) (by omega) ht' (by simpa using by omega)
          (hno.succ ht' (by omega)) ?_ hidx'
        have e : p + 1 - 1 = p := by omega
        rw [e]
        exact hb

/-- EXTRACT(CW, s): the bits of the first 21 edges up to the first gap, or incomplete. -/
theorem extractWindow_spec (clk dat : Nat → Bool) {n gap s : Nat} (idx : Nat) (hgap : 1 ≤ gap) (hs : s < n) :
    ExtractSays clk dat n gap s idx (extractWindow clk dat n gap s idx) := by
  refine extractScan_spec clk dat (n - (s + 1)) (s + 1) _ (by omega) (by omega) ?_ (by simpa using by omega)
    (fun q hq hg => by omega) ?_ ?_
  · exact ⟨by simp, fun k h1 h2 => by simp at h1; omega, fun h => by simp at h⟩
  · simpa using isStreamOf_nil dat
  · simp

/-- The first gap is one index only. -/
theorem IsFirstGap.unique {clk : Nat → Bool} {n gap s q q' : Nat} (h : IsFirstGap clk n gap s q)
    (h' : IsFirstGap clk n gap s q') : q = q' := by
  rcases Nat.lt_trichotomy q q' with hlt | heq | hgt
  · exact absurd h.2.1 (h'.2.2 q hlt)
  · exact heq
  · exact absurd h'.2.1 (h.2.2 q' hgt)

/-! The edges of a range. -/

theorem mem_edgesIn {clk : Nat → Bool} {s q p : Nat} :
    p ∈ edgesIn clk s q ↔ s + 1 ≤ p ∧ p ≤ q ∧ clk (p - 1) = true ∧ clk p = false := by
  simp only [edgesIn, List.mem_filter, List.mem_range', fallingEdge]
  constructor
  · rintro ⟨⟨i, hi, rfl⟩, h⟩
    exact ⟨by omega, by omega, by simpa using h⟩
  · rintro ⟨h1, h2, h3, h4⟩
    exact ⟨⟨p - (s + 1), by omega, by omega⟩, by simp [h3, h4]⟩

theorem edgesIn_pairwise (clk : Nat → Bool) (s q : Nat) : (edgesIn clk s q).Pairwise (· < ·) :=
  List.Pairwise.filter _ List.pairwise_lt_range'

theorem edgesIn_split {clk : Nat → Bool} {s m q : Nat} (h1 : s ≤ m) (h2 : m ≤ q) :
    edgesIn clk s q = edgesIn clk s m ++ edgesIn clk m q := by
  have e : q - s = (m - s) + (q - m) := by omega
  have e2 : s + 1 + (m - s) = m + 1 := by omega
  unfold edgesIn
  rw [← List.filter_append, e, List.range'_append_1.symm, e2]

/-! The scans look at the levels of the window only, and EXTRACT at the data of the falling edges only. -/

theorem advanceLow_congr {c1 c2 : Nat → Bool} {n : Nat} (h : ∀ i, i < n → c1 i = c2 i) :
    ∀ left j, j + left < n → advanceLow c1 left j = advanceLow c2 left j := by
  intro left
  induction left with
  | zero => exact fun _ _ => rfl
  | succ left ih =>
    intro j hj
    simp only [advanceLow]
    rw [h (j + 1) (by omega), ih (j + 1) (by omega)]

theorem syncScan_congr {c1 c2 : Nat → Bool} {n gap : Nat} (h : ∀ i, i < n → c1 i = c2 i) :
    ∀ left i run, i + left = n → syncScan c1 gap left i run = syncScan c2 gap left i run := by
  intro left
  induction left with
  | zero => exact fun _ _ _ => rfl
  | succ left ih =>
    intro i run hi
    simp only [syncScan]
    rw [h i (by omega), ih (i + 1) _ (by omega), advanceLow_congr h left i (by omega)]

theorem syncWindow_congr {c1 c2 : Nat → Bool} {n gap : Nat} (h : ∀ i, i < n → c1 i = c2 i) :
    syncWindow c1 n gap = syncWindow c2 n gap := syncScan_congr h n 0 0 (by omega)

theorem extractScan_congr {c1 c2 d1 d2 : Nat → Bool} {n gap s : Nat} (h : ∀ i, i < n → c1 i = c2 i)
    (hd : ∀ i, s < i → i < n → fallingEdge c2 i = true → d1 i = d2 i) :
    ∀ left p a, s < p → p + left = n → extractScan c1 d1 gap left p a = extractScan c2 d2 gap left p a := by
  intro left
  induction left with
  | zero => exact fun _ _ _ _ => rfl
  | succ left ih =>
    intro p a hs hp
    have hf : fallingEdge c1 p = fallingEdge c2 p := by
      simp only [fallingEdge]
      rw [h p (by omega), h (p - 1) (by omega)]
    have hb : (if fallingEdge c2 p = true then appendBit a (d1 p) else a)
        = (if fallingEdge c2 p = true then appendBit a (d2 p) else a) := by
      split
      · next he => rw [hd p hs (by omega) he]
      · rfl
    simp only [extractScan]
    rw [h p (by omega), ih (p + 1) _ (by omega) (by omega), ih (p + 1) _ (by omega) (by omega), hf, hb]

theorem extractWindow_congr {c1 c2 d1 d2 : Nat → Bool} {n gap s : Nat} (idx : Nat)
    (h : ∀ i, i < n → c1 i = c2 i) (hd : ∀ i, s < i → i < n → fallingEdge c2 i = true → d1 i = d2 i)
    (hs : s < n) : extractWindow c1 d1 n gap s idx = extractWindow c2 d2 n gap s idx :=
  extractScan_congr h hd _ _ _ (by omega) (by omega)

end Sys2Proof.Machine
end

