-- ==== Sys2Proof/Laws/State.lean ====
section
/-! SUPPORT. What each named update leaves in each field, one lemma for each field that is asked for, true by
rfl, so that no later proof unfolds a record update. -/

namespace Sys2Proof.Machine

/-! takeInputs writes only the pins. -/

@[simp] theorem takeInputs_params (s : State) : (takeInputs s).params = s.params := rfl
@[simp] theorem takeInputs_stability (s : State) : (takeInputs s).stability = s.stability := rfl
@[simp] theorem takeInputs_work (s : State) : (takeInputs s).work = s.work := rfl
@[simp] theorem takeInputs_phase (s : State) : (takeInputs s).phase = s.phase := rfl
@[simp] theorem takeInputs_busy (s : State) : (takeInputs s).busy = s.busy := rfl
@[simp] theorem takeInputs_done (s : State) : (takeInputs s).done = s.done := rfl
@[simp] theorem takeInputs_status (s : State) : (takeInputs s).status = s.status := rfl
@[simp] theorem takeInputs_commit (s : State) : (takeInputs s).commit = s.commit := rfl
@[simp] theorem takeInputs_commitValue (s : State) : (takeInputs s).commitValue = s.commitValue := rfl
@[simp] theorem takeInputs_rst (s : State) : (takeInputs s).rst = false := rfl
@[simp] theorem takeInputs_start (s : State) : (takeInputs s).start = false := rfl
@[simp] theorem takeInputs_cw (s : State) : (takeInputs s).cw = s.cw := rfl
@[simp] theorem takeInputs_cwStale (s : State) : (takeInputs s).cwStale = s.cwStale := rfl
@[simp] theorem takeInputs_cwEpoch (s : State) : (takeInputs s).cwEpoch = s.cwEpoch := rfl
@[simp] theorem takeInputs_cut (s : State) : (takeInputs s).cut = s.cut := rfl
@[simp] theorem takeInputs_group (s : State) : (takeInputs s).group = s.group := rfl

/-! endIteration writes the handshake, the commit output and the window's use. -/

@[simp] theorem endIteration_params (st : Status) (c : Bool) (v : Value) (s : State) :
    (endIteration st c v s).params = s.params := rfl
@[simp] theorem endIteration_stability (st : Status) (c : Bool) (v : Value) (s : State) :
    (endIteration st c v s).stability = s.stability := rfl
@[simp] theorem endIteration_work (st : Status) (c : Bool) (v : Value) (s : State) :
    (endIteration st c v s).work = s.work := rfl
@[simp] theorem endIteration_phase (st : Status) (c : Bool) (v : Value) (s : State) :
    (endIteration st c v s).phase = .done := rfl
@[simp] theorem endIteration_busy (st : Status) (c : Bool) (v : Value) (s : State) :
    (endIteration st c v s).busy = false := rfl
@[simp] theorem endIteration_done (st : Status) (c : Bool) (v : Value) (s : State) :
    (endIteration st c v s).done = true := rfl
@[simp] theorem endIteration_status (st : Status) (c : Bool) (v : Value) (s : State) :
    (endIteration st c v s).status = st := rfl
@[simp] theorem endIteration_commit (st : Status) (c : Bool) (v : Value) (s : State) :
    (endIteration st c v s).commit = c := rfl
@[simp] theorem endIteration_commitValue (st : Status) (c : Bool) (v : Value) (s : State) :
    (endIteration st c v s).commitValue = v := rfl
@[simp] theorem endIteration_rst (st : Status) (c : Bool) (v : Value) (s : State) :
    (endIteration st c v s).rst = s.rst := rfl
@[simp] theorem endIteration_start (st : Status) (c : Bool) (v : Value) (s : State) :
    (endIteration st c v s).start = s.start := rfl
@[simp] theorem endIteration_cw (st : Status) (c : Bool) (v : Value) (s : State) :
    (endIteration st c v s).cw = s.cw := rfl
@[simp] theorem endIteration_cwStale (st : Status) (c : Bool) (v : Value) (s : State) :
    (endIteration st c v s).cwStale = true := rfl
@[simp] theorem endIteration_cwEpoch (st : Status) (c : Bool) (v : Value) (s : State) :
    (endIteration st c v s).cwEpoch = s.cwEpoch := rfl
@[simp] theorem endIteration_cut (st : Status) (c : Bool) (v : Value) (s : State) :
    (endIteration st c v s).cut = s.cut := rfl
@[simp] theorem endIteration_group (st : Status) (c : Bool) (v : Value) (s : State) :
    (endIteration st c v s).group = 0 := rfl

/-! raise is the end of the iteration with no commit. -/

@[simp] theorem raise_params (x : EarlyOutcome) (s : State) : (raise x s).params = s.params := rfl
@[simp] theorem raise_stability (x : EarlyOutcome) (s : State) : (raise x s).stability = s.stability := rfl
@[simp] theorem raise_work (x : EarlyOutcome) (s : State) : (raise x s).work = s.work := rfl
@[simp] theorem raise_phase (x : EarlyOutcome) (s : State) : (raise x s).phase = .done := rfl
@[simp] theorem raise_busy (x : EarlyOutcome) (s : State) : (raise x s).busy = false := rfl
@[simp] theorem raise_done (x : EarlyOutcome) (s : State) : (raise x s).done = true := rfl
@[simp] theorem raise_status (x : EarlyOutcome) (s : State) : (raise x s).status = x.status := rfl
@[simp] theorem raise_commit (x : EarlyOutcome) (s : State) : (raise x s).commit = false := rfl
@[simp] theorem raise_commitValue (x : EarlyOutcome) (s : State) : (raise x s).commitValue = 0 := rfl
@[simp] theorem raise_rst (x : EarlyOutcome) (s : State) : (raise x s).rst = s.rst := rfl
@[simp] theorem raise_start (x : EarlyOutcome) (s : State) : (raise x s).start = s.start := rfl
@[simp] theorem raise_cw (x : EarlyOutcome) (s : State) : (raise x s).cw = s.cw := rfl
@[simp] theorem raise_cwStale (x : EarlyOutcome) (s : State) : (raise x s).cwStale = true := rfl
@[simp] theorem raise_cwEpoch (x : EarlyOutcome) (s : State) : (raise x s).cwEpoch = s.cwEpoch := rfl
@[simp] theorem raise_cut (x : EarlyOutcome) (s : State) : (raise x s).cut = s.cut := rfl
@[simp] theorem raise_group (x : EarlyOutcome) (s : State) : (raise x s).group = 0 := rfl

/-! freshWindow writes only the window. -/

theorem freshWindow_of_fresh {s : State} (h : s.cwStale = false) : freshWindow s = s := by
  simp [freshWindow, h]

theorem freshWindow_of_stale {s : State} (h : s.cwStale = true) :
    freshWindow s = { s with cw := [], cwStale := false, cwEpoch := s.cwEpoch + 1 } := by
  simp [freshWindow, h]

/-- The one thing freshWindow does: the window's three fields may change, nothing else. -/
theorem freshWindow_eq (s : State) :
    freshWindow s = { s with cw := (freshWindow s).cw, cwStale := false,
                             cwEpoch := (freshWindow s).cwEpoch } := by
  unfold freshWindow
  split
  · rfl
  · cases s
    simp_all

@[simp] theorem freshWindow_params (s : State) : (freshWindow s).params = s.params := by
  rw [freshWindow_eq]
@[simp] theorem freshWindow_stability (s : State) : (freshWindow s).stability = s.stability := by
  rw [freshWindow_eq]
@[simp] theorem freshWindow_work (s : State) : (freshWindow s).work = s.work := by
  rw [freshWindow_eq]
@[simp] theorem freshWindow_phase (s : State) : (freshWindow s).phase = s.phase := by
  rw [freshWindow_eq]
@[simp] theorem freshWindow_busy (s : State) : (freshWindow s).busy = s.busy := by
  rw [freshWindow_eq]
@[simp] theorem freshWindow_done (s : State) : (freshWindow s).done = s.done := by
  rw [freshWindow_eq]
@[simp] theorem freshWindow_status (s : State) : (freshWindow s).status = s.status := by
  rw [freshWindow_eq]
@[simp] theorem freshWindow_commit (s : State) : (freshWindow s).commit = s.commit := by
  rw [freshWindow_eq]
@[simp] theorem freshWindow_commitValue (s : State) : (freshWindow s).commitValue = s.commitValue := by
  rw [freshWindow_eq]
@[simp] theorem freshWindow_rst (s : State) : (freshWindow s).rst = s.rst := by
  rw [freshWindow_eq]
@[simp] theorem freshWindow_start (s : State) : (freshWindow s).start = s.start := by
  rw [freshWindow_eq]
@[simp] theorem freshWindow_cwStale (s : State) : (freshWindow s).cwStale = false := by
  rw [freshWindow_eq]
@[simp] theorem freshWindow_cut (s : State) : (freshWindow s).cut = s.cut := by
  rw [freshWindow_eq]
@[simp] theorem freshWindow_group (s : State) : (freshWindow s).group = s.group := by
  rw [freshWindow_eq]

/-! The working registers replaced. -/

/-- The state with the working registers w: the one update that iterations are described with. -/
def withWork (w : Working) (s : State) : State := { s with work := w }

@[simp] theorem withWork_work (w : Working) (s : State) : (withWork w s).work = w := rfl
@[simp] theorem withWork_params (w : Working) (s : State) : (withWork w s).params = s.params := rfl
@[simp] theorem withWork_stability (w : Working) (s : State) : (withWork w s).stability = s.stability := rfl
@[simp] theorem withWork_phase (w : Working) (s : State) : (withWork w s).phase = s.phase := rfl
@[simp] theorem withWork_busy (w : Working) (s : State) : (withWork w s).busy = s.busy := rfl
@[simp] theorem withWork_done (w : Working) (s : State) : (withWork w s).done = s.done := rfl
@[simp] theorem withWork_status (w : Working) (s : State) : (withWork w s).status = s.status := rfl
@[simp] theorem withWork_commit (w : Working) (s : State) : (withWork w s).commit = s.commit := rfl
@[simp] theorem withWork_commitValue (w : Working) (s : State) : (withWork w s).commitValue = s.commitValue := rfl
@[simp] theorem withWork_rst (w : Working) (s : State) : (withWork w s).rst = s.rst := rfl
@[simp] theorem withWork_start (w : Working) (s : State) : (withWork w s).start = s.start := rfl
@[simp] theorem withWork_cw (w : Working) (s : State) : (withWork w s).cw = s.cw := rfl
@[simp] theorem withWork_cwStale (w : Working) (s : State) : (withWork w s).cwStale = s.cwStale := rfl
@[simp] theorem withWork_cwEpoch (w : Working) (s : State) : (withWork w s).cwEpoch = s.cwEpoch := rfl
@[simp] theorem withWork_cut (w : Working) (s : State) : (withWork w s).cut = s.cut := rfl
@[simp] theorem withWork_group (w : Working) (s : State) : (withWork w s).group = s.group := rfl

/-! acceptStart: the clearing of R34 over the window in use. -/

@[simp] theorem acceptStart_params (s : State) : (acceptStart s).params = s.params := by
  simp [acceptStart]
@[simp] theorem acceptStart_stability (s : State) : (acceptStart s).stability = s.stability := by
  simp [acceptStart]
@[simp] theorem acceptStart_work (s : State) : (acceptStart s).work = Working.cleared := rfl
@[simp] theorem acceptStart_phase (s : State) : (acceptStart s).phase = .sync := rfl
@[simp] theorem acceptStart_busy (s : State) : (acceptStart s).busy = true := rfl
@[simp] theorem acceptStart_done (s : State) : (acceptStart s).done = false := rfl
@[simp] theorem acceptStart_status (s : State) : (acceptStart s).status = s.status := by
  simp [acceptStart]
@[simp] theorem acceptStart_commit (s : State) : (acceptStart s).commit = false := rfl
@[simp] theorem acceptStart_commitValue (s : State) : (acceptStart s).commitValue = 0 := rfl
@[simp] theorem acceptStart_rst (s : State) : (acceptStart s).rst = s.rst := by
  simp [acceptStart]
@[simp] theorem acceptStart_start (s : State) : (acceptStart s).start = s.start := by
  simp [acceptStart]
@[simp] theorem acceptStart_cw (s : State) : (acceptStart s).cw = (freshWindow s).cw := rfl
@[simp] theorem acceptStart_cwStale (s : State) : (acceptStart s).cwStale = false := by
  simp [acceptStart]
@[simp] theorem acceptStart_cwEpoch (s : State) : (acceptStart s).cwEpoch = (freshWindow s).cwEpoch := rfl
@[simp] theorem acceptStart_cut (s : State) : (acceptStart s).cut = s.cut := by
  simp [acceptStart]
@[simp] theorem acceptStart_group (s : State) : (acceptStart s).group = 0 := rfl

/-! resetRegisters: R37, and what is no register of CORE stays. -/

@[simp] theorem resetRegisters_params (s : State) : (resetRegisters s).params = s.params := rfl
@[simp] theorem resetRegisters_stability (s : State) : (resetRegisters s).stability = Stability.none := rfl
@[simp] theorem resetRegisters_work (s : State) : (resetRegisters s).work = Working.cleared := rfl
@[simp] theorem resetRegisters_phase (s : State) : (resetRegisters s).phase = .idle := rfl
@[simp] theorem resetRegisters_busy (s : State) : (resetRegisters s).busy = false := rfl
@[simp] theorem resetRegisters_done (s : State) : (resetRegisters s).done = false := rfl
@[simp] theorem resetRegisters_status (s : State) : (resetRegisters s).status = .none := rfl
@[simp] theorem resetRegisters_commit (s : State) : (resetRegisters s).commit = false := rfl
@[simp] theorem resetRegisters_commitValue (s : State) : (resetRegisters s).commitValue = 0 := rfl
@[simp] theorem resetRegisters_rst (s : State) : (resetRegisters s).rst = false := rfl
@[simp] theorem resetRegisters_start (s : State) : (resetRegisters s).start = false := rfl
@[simp] theorem resetRegisters_cw (s : State) : (resetRegisters s).cw = s.cw := rfl
@[simp] theorem resetRegisters_cwStale (s : State) : (resetRegisters s).cwStale = (s.cwStale || s.busy) := rfl
@[simp] theorem resetRegisters_cwEpoch (s : State) : (resetRegisters s).cwEpoch = s.cwEpoch := rfl
@[simp] theorem resetRegisters_cut (s : State) : (resetRegisters s).cut = s.cut := rfl
@[simp] theorem resetRegisters_group (s : State) : (resetRegisters s).group = 0 := rfl

/-! busyIn: a busy CORE, with a window in use. -/

@[simp] theorem busyIn_params (p : Phase) (c : StepCut) (s : State) : (busyIn p c s).params = s.params := by
  simp [busyIn]
@[simp] theorem busyIn_stability (p : Phase) (c : StepCut) (s : State) : (busyIn p c s).stability = s.stability := by
  simp [busyIn]
@[simp] theorem busyIn_work (p : Phase) (c : StepCut) (s : State) : (busyIn p c s).work = s.work := by
  simp [busyIn]
@[simp] theorem busyIn_phase (p : Phase) (c : StepCut) (s : State) : (busyIn p c s).phase = p := rfl
@[simp] theorem busyIn_busy (p : Phase) (c : StepCut) (s : State) : (busyIn p c s).busy = true := rfl
@[simp] theorem busyIn_done (p : Phase) (c : StepCut) (s : State) : (busyIn p c s).done = false := rfl
@[simp] theorem busyIn_rst (p : Phase) (c : StepCut) (s : State) : (busyIn p c s).rst = false := rfl
@[simp] theorem busyIn_start (p : Phase) (c : StepCut) (s : State) : (busyIn p c s).start = s.start := by
  simp [busyIn]
@[simp] theorem busyIn_cwStale (p : Phase) (c : StepCut) (s : State) : (busyIn p c s).cwStale = false := by
  simp [busyIn]
@[simp] theorem busyIn_cut (p : Phase) (c : StepCut) (s : State) : (busyIn p c s).cut = c := rfl

/-! The register arrays. -/

@[simp] theorem tripleGet_set_same {α : Type} (x : Triple α) (k : Fin 3) (v : α) :
    tripleGet (tripleSet x k v) k = v := by
  match k with
  | 0 => rfl
  | 1 => rfl
  | 2 => rfl

theorem tripleGet_set_other {α : Type} (x : Triple α) {k j : Fin 3} (v : α) (h : j ≠ k) :
    tripleGet (tripleSet x k v) j = tripleGet x j := by
  match k, j, h with
  | 0, 0, h => exact absurd rfl h
  | 0, 1, _ => rfl
  | 0, 2, _ => rfl
  | 1, 0, _ => rfl
  | 1, 1, h => exact absurd rfl h
  | 1, 2, _ => rfl
  | 2, 0, _ => rfl
  | 2, 1, _ => rfl
  | 2, 2, h => exact absurd rfl h

@[simp] theorem tripleGet_zero {α : Type} (x : Triple α) : tripleGet x 0 = x.d0 := rfl
@[simp] theorem tripleGet_one {α : Type} (x : Triple α) : tripleGet x 1 = x.d1 := rfl
@[simp] theorem tripleGet_two {α : Type} (x : Triple α) : tripleGet x 2 = x.d2 := rfl

/-! The entries read depend on the window alone. -/

/-- Two states with the same window read the same entries. -/
theorem sampleAt_congr {s t : State} (h : t.cw = s.cw) (he : t.cwEpoch = s.cwEpoch)
    (hs : t.cwStale = s.cwStale) (i : Nat) : sampleAt t i = sampleAt s i := by
  simp [sampleAt, h, he, hs]

/-- R236: an entry of a used-up window is a free value. -/
theorem sampleAt_of_stale {s : State} (h : s.cwStale = true) (i : Nat) :
    sampleAt s i = Config.freeSample (s.cwEpoch + 1) i := by
  simp [sampleAt, h]

/-- Replacing a used-up window changes no entry that is read. -/
@[simp] theorem sampleAt_freshWindow (s : State) (i : Nat) : sampleAt (freshWindow s) i = sampleAt s i := by
  cases h : s.cwStale <;> simp [freshWindow, sampleAt, cellAt, h]

/-- The iteration reads the entries that CW holds when start is accepted (R54). -/
@[simp] theorem sampleAt_acceptStart (s : State) (i : Nat) : sampleAt (acceptStart s) i = sampleAt s i :=
  (sampleAt_congr rfl rfl (by simp) i).trans (sampleAt_freshWindow s i)

theorem clk_congr {s t : State} (h : t.cw = s.cw) (he : t.cwEpoch = s.cwEpoch)
    (hs : t.cwStale = s.cwStale) : clk t = clk s := by
  funext i
  simp [clk, sampleAt_congr h he hs i]

theorem dat_congr {s t : State} (h : t.cw = s.cw) (he : t.cwEpoch = s.cwEpoch)
    (hs : t.cwStale = s.cwStale) : dat t = dat s := by
  funext i
  simp [dat, sampleAt_congr h he hs i]

@[simp] theorem clk_acceptStart (s : State) : clk (acceptStart s) = clk s := by
  funext i
  simp [clk]

@[simp] theorem dat_acceptStart (s : State) : dat (acceptStart s) = dat s := by
  funext i
  simp [dat]

/-- R231: reset with no iteration running leaves CW as the Sampler has written it. -/
theorem sampleAt_resetRegisters {s : State} (hb : s.busy = false) (i : Nat) :
    sampleAt (resetRegisters s) i = sampleAt s i :=
  sampleAt_congr (s := s) (t := resetRegisters s) rfl rfl (by simp [hb]) i

end Sys2Proof.Machine
end

