-- ==== Sys2Proof/Laws/Ops.lean ====
section
/-! SUPPORT. Everything each shared operation can do, said once: the guard of the legal parameters, the results
of SYNC, EXTRACT, DECODE, ASSEMBLE and FILTER as updates of the state, and what a step answers. -/

namespace Sys2Proof.Machine

/-! The guard. -/

theorem whenLegal_of_legal {s : State} (h : paramsLegal s.params = true) (r : Outcome) :
    whenLegal s r = r := by
  simp [whenLegal, h]

theorem whenLegal_of_illegal {s : State} (h : paramsLegal s.params = false) (r : Outcome) :
    whenLegal s r = .refused .paramsOutOfRange := by
  simp [whenLegal, h]

/-- A guarded meaning answers a next state only under legal parameters, and then its own. -/
theorem whenLegal_eq_next {s t : State} {r : Outcome} (h : whenLegal s r = .next t) :
    paramsLegal s.params = true ∧ r = .next t := by
  unfold whenLegal at h
  split at h
  · next hl => exact ⟨hl, h⟩
  · cases h

/-! SYNC. -/

/-- SYNC finds the end of the first idle run, or does not find one; nothing but its own registers changes. -/
theorem runSync_cases {s : State} (h : paramsLegal s.params = true) :
    (∃ a b, IsFirstIdle (clk s) s.params.n s.params.gap a b
      ∧ runSync s = { s with work := { s.work with
          idx := b, run := s.params.gap, syncFound := true, syncIdx := b } })
    ∨ ∃ r, r < s.params.gap ∧ LowTail (clk s) 0 s.params.n r ∧ NoGapBelow (clk s) s.params.gap 0 s.params.n
      ∧ runSync s = { s with work := { s.work with
          idx := s.params.n - 1, run := r, syncFound := false, syncIdx := 0 } } := by
  rcases syncWindow_spec (clk s) s.params.n (paramsLegal_gap h) with ⟨a, b, hab, he⟩ | ⟨r, hr, ht, hno, he⟩
  · exact Or.inl ⟨a, b, hab, by simp [runSync, he]⟩
  · exact Or.inr ⟨r, hr, ht, hno, by simp [runSync, he]⟩

/-- A first idle run decides SYNC. -/
theorem runSync_found {s : State} (h : paramsLegal s.params = true) {a b : Nat}
    (hab : IsFirstIdle (clk s) s.params.n s.params.gap a b) :
    runSync s = { s with work := { s.work with
      idx := b, run := s.params.gap, syncFound := true, syncIdx := b } } := by
  rcases runSync_cases h with ⟨a', b', hab', he⟩ | ⟨r, -, -, hno, -⟩
  · obtain ⟨-, rfl⟩ := hab.unique hab'
    exact he
  · exact absurd hno (hab.1.gap hab.2.1 (paramsLegal_gap h))

/-- Where no gap ends in the window there is no idle run, and conversely. -/
theorem noGapBelow_of_noIdle {s : State} (h : paramsLegal s.params = true)
    (hno : ∀ a b, IsLowRun (clk s) s.params.n a b → b - a + 1 < s.params.gap) :
    ∃ r, r < s.params.gap ∧ LowTail (clk s) 0 s.params.n r
      ∧ runSync s = { s with work := { s.work with
          idx := s.params.n - 1, run := r, syncFound := false, syncIdx := 0 } } := by
  rcases runSync_cases h with ⟨a, b, hab, -⟩ | ⟨r, hr, ht, -, he⟩
  · exact absurd (hno a b hab.1) (by have := hab.2.1; omega)
  · exact ⟨r, hr, ht, he⟩

/-! EXTRACT. -/

/-- EXTRACT stops at the first gap, or is incomplete; nothing but its own registers changes. -/
theorem runExtract_cases {s : State} (h : paramsLegal s.params = true) {start : Nat} (hs : start < s.params.n) :
    (∃ q sr nb, IsFirstGap (clk s) s.params.n s.params.gap start q
      ∧ IsStreamOf (dat s) (edgesIn (clk s) start q) sr nb
      ∧ runExtract start s = { s with work := { s.work with
          idx := q, run := s.params.gap, sr := sr, nbits := nb, eofFound := true, eofIdx := q } })
    ∨ ∃ sr nb r, (∀ q, q < s.params.n → ¬ IsGapAt (clk s) s.params.gap start q)
      ∧ IsStreamOf (dat s) (edgesIn (clk s) start (s.params.n - 1)) sr nb ∧ r < s.params.gap
      ∧ runExtract start s = { s with work := { s.work with
          idx := if start + 1 < s.params.n then s.params.n - 1 else s.work.idx
          run := r, sr := sr, nbits := nb, eofFound := false, eofIdx := 0 } } := by
  have hspec := extractWindow_spec (clk s) (dat s) s.work.idx (paramsLegal_gap h) hs
  generalize hr : extractWindow (clk s) (dat s) s.params.n s.params.gap start s.work.idx = r at hspec
  obtain ⟨acc, e⟩ := r
  rcases hspec with ⟨q, hq, hst, hidx, hrun, he⟩ | ⟨hno, hst, hidx, hrun, he⟩
  · simp only at hst hidx hrun he
    subst he
    exact Or.inl ⟨q, acc.sr, acc.nbits, hq, hst, by simp [runExtract, hr, hidx, hrun]⟩
  · simp only at hst hidx hrun he
    subst he
    exact Or.inr ⟨acc.sr, acc.nbits, acc.run, hno, hst, hrun, by simp [runExtract, hr, hidx]⟩

theorem frameComplete_iff (w : Working) : frameComplete w = true ↔ w.eofFound = true ∧ 21 ≤ w.nbits := by
  simp [frameComplete]

/-! DECODE and ASSEMBLE. -/

/-- DECODE of one group writes that group's digit and nothing else. -/
theorem decodeGroupK_eq (k : Fin 3) (s : State) :
    decodeGroupK k s = { s with work := { s.work with
      digValid := tripleSet s.work.digValid k (digitValid (decodeDigit s.params.table (groupOf s.work.sr k)))
      dig := tripleSet s.work.dig k (digitValue (decodeDigit s.params.table (groupOf s.work.sr k))) } } := rfl

/-- DECODE of the frame writes the three digits and nothing else. -/
theorem runDecode_eq (s : State) :
    runDecode s = { s with work := { s.work with
      digValid := ⟨digitValid (decodeDigit s.params.table (groupOf s.work.sr 0)),
                   digitValid (decodeDigit s.params.table (groupOf s.work.sr 1)),
                   digitValid (decodeDigit s.params.table (groupOf s.work.sr 2))⟩
      dig := ⟨digitValue (decodeDigit s.params.table (groupOf s.work.sr 0)),
              digitValue (decodeDigit s.params.table (groupOf s.work.sr 1)),
              digitValue (decodeDigit s.params.table (groupOf s.work.sr 2))⟩ } } := rfl

theorem digitValue_le {t : Table} (h : tableLegal t = true) (g : Group) :
    (digitValue (decodeDigit t g)).toNat ≤ 9 := by
  cases hd : decodeDigit t g with
  | digit v => exact decodeDigit_le h hd
  | unrecognized => simp [digitValue]

/-- R152: with digits at most 9 the sum does not wrap. -/
theorem assembledValue_toNat {d : Triple Digit} (h0 : d.d0.toNat ≤ 9) (h1 : d.d1.toNat ≤ 9)
    (h2 : d.d2.toNat ≤ 9) :
    (assembledValue d).toNat = 100 * d.d0.toNat + 10 * d.d1.toNat + d.d2.toNat := by
  simp only [assembledValue, BitVec.toNat_add, BitVec.toNat_mul, BitVec.toNat_ofNat, BitVec.toNat_setWidth]
  omega

theorem allRecognized_iff (d : Triple Bool) : allRecognized d = true ↔ ∀ k, tripleGet d k = true := by
  constructor
  · intro h k
    simp only [allRecognized, Bool.and_eq_true] at h
    match k with
    | 0 => exact h.1.1
    | 1 => exact h.1.2
    | 2 => exact h.2
  · intro h
    have h0 := h 0
    have h1 := h 1
    have h2 := h 2
    simp only [tripleGet_zero, tripleGet_one, tripleGet_two] at h0 h1 h2
    simp [allRecognized, h0, h1, h2]

/-! FILTER. -/

/-- The rows of the transition table (R163): a new or first candidate, a repeat below the threshold, the
threshold with and without a commit, and Stable unchanged. -/
theorem filterStep_cases (stab : Nat) (S : Stability) (v : Value) :
    ((S.candValid = false ∨ v ≠ S.cand)
        ∧ filterStep stab S v = ({ S with candValid := true, cand := v, count := 1 }, .noCommit))
    ∨ (S.candValid = true ∧ v = S.cand ∧ S.count + 1 < stab
        ∧ filterStep stab S v = ({ S with count := S.count + 1 }, .noCommit))
    ∨ (S.candValid = true ∧ v = S.cand ∧ S.count + 1 = stab ∧ differsFromCommitted S v = true
        ∧ filterStep stab S v = ({ S with count := stab, lcValid := true, lc := v }, .commit v))
    ∨ (S.candValid = true ∧ v = S.cand ∧ S.count + 1 = stab ∧ differsFromCommitted S v = false
        ∧ filterStep stab S v = ({ S with count := stab }, .noCommit))
    ∨ (S.candValid = true ∧ v = S.cand ∧ stab ≤ S.count ∧ filterStep stab S v = (S, .noCommit)) := by
  cases hc : S.candValid with
  | false => exact Or.inl ⟨Or.inl rfl, by simp [filterStep, hc]⟩
  | true =>
    by_cases hv : v = S.cand
    · right
      by_cases hlt : S.count < stab
      · by_cases heq : S.count + 1 = stab
        · right
          cases hd : differsFromCommitted S v with
          | true =>
            refine Or.inl ⟨rfl, hv, heq, rfl, ?_⟩
            unfold filterStep
            rw [if_neg (by simp [hc]), if_neg (by simpa using hv), if_pos hlt, if_pos heq, if_pos hd, heq, hc]
          | false =>
            refine Or.inr (Or.inl ⟨rfl, hv, heq, rfl, ?_⟩)
            unfold filterStep
            rw [if_neg (by simp [hc]), if_neg (by simpa using hv), if_pos hlt, if_pos heq,
              if_neg (by simp [hd]), heq, hc]
        · refine Or.inl ⟨rfl, hv, by omega, ?_⟩
          unfold filterStep
          rw [if_neg (by simp [hc]), if_neg (by simpa using hv), if_pos hlt, if_neg heq, hc]
      · refine Or.inr (Or.inr (Or.inr ⟨rfl, hv, by omega, ?_⟩))
        unfold filterStep
        rw [if_neg (by simp [hc]), if_neg (by simpa using hv), if_neg hlt]
    · refine Or.inl ⟨Or.inr hv, ?_⟩
      unfold filterStep
      rw [if_neg (by simp [hc]), if_pos hv]
      cases S
      simp_all

theorem candidateLegal_iff (v : Value) : candidateLegal v = true ↔ 1 ≤ v.toNat ∧ v.toNat ≤ 999 := by
  simp [candidateLegal]

/-- FILTER's end of the iteration: accepted, with the new stability state. -/
theorem runFilter_eq (v : Value) (s : State) :
    ∃ c x, runFilter v s
        = endIteration .accepted c x { s with stability := (filterStep s.params.stab s.stability v).1 }
      ∧ ((filterStep s.params.stab s.stability v).2 = .noCommit ∧ c = false ∧ x = 0
        ∨ ∃ y, (filterStep s.params.stab s.stability v).2 = .commit y ∧ c = true ∧ x = y) := by
  unfold runFilter
  cases h : (filterStep s.params.stab s.stability v).2 with
  | commit y => exact ⟨true, y, by simp [h], Or.inr ⟨y, rfl, rfl, rfl⟩⟩
  | noCommit => exact ⟨false, 0, by simp [h], Or.inl ⟨rfl, rfl, rfl⟩⟩

/-- Everything FILTER's end of the iteration leaves but the model's own fields, one clause for each field. -/
theorem runFilter_fields (v : Value) (s : State) :
    (runFilter v s).work = s.work ∧ (runFilter v s).params = s.params
      ∧ (runFilter v s).phase = .done ∧ (runFilter v s).busy = false ∧ (runFilter v s).done = true
      ∧ (runFilter v s).status = .accepted
      ∧ (runFilter v s).stability = (filterStep s.params.stab s.stability v).1
      ∧ (runFilter v s).stability.candValid = true ∧ (runFilter v s).stability.cand = v
      ∧ ((filterStep s.params.stab s.stability v).2 = .commit v →
          (runFilter v s).commit = true ∧ (runFilter v s).commitValue = v)
      ∧ ((filterStep s.params.stab s.stability v).2 = .noCommit →
          (runFilter v s).commit = false ∧ (runFilter v s).commitValue = 0) := by
  rcases filterStep_cases s.params.stab s.stability v with
    ⟨-, e⟩ | ⟨hc, hv, -, e⟩ | ⟨hc, hv, -, -, e⟩ | ⟨hc, hv, -, -, e⟩ | ⟨hc, hv, -, e⟩
  · simp [runFilter, e]
  all_goals
    simp only [runFilter, e]
    simp [hc, hv]

/-! Frames of the shared operations: what each leaves as it is. -/

theorem runSync_frame (s : State) : runSync s = withWork (runSync s).work s := by
  unfold runSync
  simp only
  split <;> rfl

theorem runExtract_frame (start : Nat) (s : State) :
    runExtract start s = withWork (runExtract start s).work s := by
  unfold runExtract
  simp only
  split <;> rfl

theorem runDecode_frame (s : State) : runDecode s = withWork (runDecode s).work s := rfl

theorem runAssemble_frame (s : State) : runAssemble s = withWork (runAssemble s).work s := by
  unfold runAssemble sumDigits
  split
  · split <;> rfl
  · rfl

/-- What follows SYNC is the next phase or the end of the iteration. -/
theorem afterSync_cases (s : State) :
    afterSync s = { s with phase := .extract } ∨ afterSync s = raise .syncFail s := by
  unfold afterSync
  split
  · exact Or.inl rfl
  · exact Or.inr rfl

/-- What follows EXTRACT is the next phase or the end of the iteration. -/
theorem afterExtract_cases (s : State) :
    afterExtract s = { s with phase := .decode, group := 0 } ∨ afterExtract s = raise .incomplete s := by
  unfold afterExtract
  split
  · exact Or.inl rfl
  · exact Or.inr rfl

/-- The transfer out of P_ASSEMBLE leaves the working registers as they are. -/
@[simp] theorem afterAssemble_work (s : State) : (afterAssemble s).work = s.work := by
  unfold afterAssemble
  split
  · split <;> rfl
  · split <;> rfl

/-- Where P_ASSEMBLE leads depends on the result and on the frame being complete alone. -/
theorem afterAssemble_end {s1 s2 : State} (hv : s1.work.valValid = s2.work.valValid)
    (hx : s1.work.val = s2.work.val) (hf : frameComplete s1.work = frameComplete s2.work) :
    (afterAssemble s1).phase = (afterAssemble s2).phase
      ∧ ((afterAssemble s1).phase = .done → (afterAssemble s1).status = (afterAssemble s2).status) := by
  unfold afterAssemble
  rw [hv, hx, hf]
  split
  · split
    · exact ⟨rfl, fun _ => rfl⟩
    · exact ⟨rfl, fun h => nomatch h⟩
  · split <;> exact ⟨rfl, fun _ => rfl⟩

/-- What follows ASSEMBLE is the next phase or the end of the iteration. -/
theorem afterAssemble_cases (s : State) :
    afterAssemble s = { s with phase := .filter } ∨ ∃ x, afterAssemble s = raise x s := by
  unfold afterAssemble
  split
  · split
    · exact Or.inr ⟨_, rfl⟩
    · exact Or.inl rfl
  · split
    · exact Or.inr ⟨_, rfl⟩
    · exact Or.inr ⟨_, rfl⟩

/-- DECODE of one group writes that group's digit and moves the loop on. -/
theorem applyGroup_eq (g : Group) (s : State) :
    applyGroup g s = { s with
      work := { s.work with
        digValid := tripleSet s.work.digValid s.group (digitValid (decodeDigit s.params.table g))
        dig := tripleSet s.work.dig s.group (digitValue (decodeDigit s.params.table g)) }
      phase := if s.group = 2 then .assemble else .decode
      group := if s.group = 2 then 0 else s.group + 1 } := by
  rcases s with ⟨p, st, w, ph, bu, dn, su, co, cv, rs, sa, cw, cs, ce, cut, k⟩
  match k with
  | 0 => rfl
  | 1 => rfl
  | 2 => rfl

/-! The step. -/

/-- A step that runs a word is exec of the instruction it decodes to. -/
theorem step_of_word {s : State} {w : Word} {i : Instr} (hf : fetch s = .word w)
    (hd : decode s.params.table w = .ok i) : step s = exec i (takeInputs s) := by
  simp [step, hf, hd]

theorem step_of_wait {s : State} (hf : fetch s = .wait) : step s = whenLegal s (.next (takeInputs s)) := by
  simp [step, hf]

theorem step_of_accept {s : State} (hf : fetch s = .accept) :
    step s = whenLegal s (.next (acceptStart (takeInputs s))) := by
  simp [step, hf]

end Sys2Proof.Machine
end

