-- ==== Sys2Proof/Laws/Iterate.lean ====
section
/-! SUPPORT. Everything ITERATE can do, said once (R182, R183): the four early outcomes and the accepted end, each
with the window facts that lead to it. -/

namespace Sys2Proof.Machine

/-- The working registers with the three digits of the stream decoded. -/
def decodedWork (t : Table) (w : Working) : Working :=
  { w with
    digValid := ⟨digitValid (decodeDigit t (groupOf w.sr 0)), digitValid (decodeDigit t (groupOf w.sr 1)),
                 digitValid (decodeDigit t (groupOf w.sr 2))⟩
    dig := ⟨digitValue (decodeDigit t (groupOf w.sr 0)), digitValue (decodeDigit t (groupOf w.sr 1)),
            digitValue (decodeDigit t (groupOf w.sr 2))⟩ }

theorem runDecode_work (s : State) :
    runDecode s = { s with work := decodedWork s.params.table s.work } := rfl

@[simp] theorem decodedWork_sr (t : Table) (w : Working) : (decodedWork t w).sr = w.sr := rfl
@[simp] theorem decodedWork_frameComplete (t : Table) (w : Working) :
    frameComplete (decodedWork t w) = frameComplete w := rfl
@[simp] theorem decodedWork_twice (t : Table) (w : Working) :
    decodedWork t (decodedWork t w) = decodedWork t w := rfl

/-- The decoded digits are DECODE of their groups. -/
theorem decodedWork_digits (t : Table) (w : Working) : digitsDecoded t (decodedWork t w) := by
  intro k
  match k with
  | 0 => exact ⟨rfl, rfl⟩
  | 1 => exact ⟨rfl, rfl⟩
  | 2 => exact ⟨rfl, rfl⟩

/-- ASSEMBLE on a complete frame: the digits decoded, and their sum or Invalid. -/
theorem runAssemble_complete {s : State} (h : frameComplete s.work = true) :
    (allRecognized (decodedWork s.params.table s.work).digValid = true
      ∧ runAssemble s = { s with work := { decodedWork s.params.table s.work with
          valValid := true, val := assembledValue (decodedWork s.params.table s.work).dig } })
    ∨ (allRecognized (decodedWork s.params.table s.work).digValid = false
      ∧ runAssemble s = { s with work := { decodedWork s.params.table s.work with
          valValid := false, val := 0 } }) := by
  unfold runAssemble sumDigits
  rw [if_pos h, runDecode_work]
  cases ha : allRecognized (decodedWork s.params.table s.work).digValid with
  | true => exact Or.inl ⟨rfl, by simp⟩
  | false => exact Or.inr ⟨rfl, by simp⟩

theorem runAssemble_incomplete {s : State} (h : frameComplete s.work = false) :
    runAssemble s = { s with work := { s.work with valValid := false, val := 0 } } := by
  simp [runAssemble, h]

/-- CORE in P_ASSEMBLE with the working registers w. -/
def assembling (w : Working) (s : State) : State := { s with phase := .assemble, work := w }

/-- What EXTRACT leaves in the working registers of an iteration whose sync point is j. -/
def FrameRead (s : State) (j : Nat) (w : Working) : Prop :=
  (∃ q sr nb, IsFirstGap (clk s) s.params.n s.params.gap j q
    ∧ IsStreamOf (dat s) (edgesIn (clk s) j q) sr nb
    ∧ w = { Working.cleared with
        syncFound := true, syncIdx := j, idx := q, run := s.params.gap, sr := sr, nbits := nb
        eofFound := true, eofIdx := q })
  ∨ ∃ sr nb r, (∀ q, q < s.params.n → ¬ IsGapAt (clk s) s.params.gap j q)
    ∧ IsStreamOf (dat s) (edgesIn (clk s) j (s.params.n - 1)) sr nb
    ∧ r < s.params.gap
    ∧ w = { Working.cleared with
        syncFound := true, syncIdx := j, idx := if j + 1 < s.params.n then s.params.n - 1 else j
        run := r, sr := sr, nbits := nb }

/-- What ITERATE does. -/
def IterateSays (s t : State) : Prop :=
  (∃ r, r < s.params.gap ∧ LowTail (clk s) 0 s.params.n r
    ∧ NoGapBelow (clk s) s.params.gap 0 s.params.n
    ∧ t = raise .syncFail (withWork { Working.cleared with idx := s.params.n - 1, run := r } (acceptStart s)))
  ∨ ∃ a j w, IsFirstIdle (clk s) s.params.n s.params.gap a j ∧ FrameRead s j w
    ∧ ((frameComplete w = false ∧ t = raise .incomplete (withWork w (acceptStart s)))
      ∨ (frameComplete w = true ∧ allRecognized (decodedWork s.params.table w).digValid = false
        ∧ t = raise .unrecognized (withWork (decodedWork s.params.table w) (acceptStart s)))
      ∨ (frameComplete w = true ∧ allRecognized (decodedWork s.params.table w).digValid = true
        ∧ assembledValue (decodedWork s.params.table w).dig = 0
        ∧ t = raise .zeroDiscard (withWork { decodedWork s.params.table w with valValid := true, val := 0 }
            (acceptStart s)))
      ∨ (frameComplete w = true ∧ allRecognized (decodedWork s.params.table w).digValid = true
        ∧ 1 ≤ (assembledValue (decodedWork s.params.table w).dig).toNat
        ∧ t = runFilter (assembledValue (decodedWork s.params.table w).dig) (withWork
            { decodedWork s.params.table w with
              valValid := true, val := assembledValue (decodedWork s.params.table w).dig }
            (acceptStart s))))

/-- The phase is overwritten at the end of the iteration. -/
theorem runFilter_phase (v : Value) (p : Phase) (s : State) :
    runFilter v { s with phase := p } = runFilter v s := by
  unfold runFilter
  simp only
  cases (filterStep s.params.stab s.stability v).2 <;> rfl

theorem toNat_eq_zero_of_lt_one {v : Value} (h : v.toNat < 1) : v = 0 := by
  apply BitVec.eq_of_toNat_eq
  simp
  omega

theorem iterate_spec {s : State} (h : paramsLegal s.params = true) : IterateSays s (iterate s) := by
  have hacc : paramsLegal (acceptStart s).params = true := by simpa using h
  have hclk : clk (acceptStart s) = clk s := clk_acceptStart s
  rcases runSync_cases hacc with ⟨a, j, hab, he⟩ | ⟨r, hr, ht, hno, he⟩
  · rw [hclk] at hab
    simp only [acceptStart_params, acceptStart_work] at hab he
    right
    have hj : j < s.params.n := hab.1.2.1
    generalize hs2 : ({ runSync (acceptStart s) with phase := Phase.extract } : State) = s2
    have hs2e : s2 = { acceptStart s with
        phase := .extract
        work := { Working.cleared with
          idx := j, run := s.params.gap, syncFound := true, syncIdx := j } } := by
      rw [← hs2, he]
      simp
    have hleg2 : paramsLegal s2.params = true := by rw [hs2e]; simpa using h
    have hp2 : s2.params = s.params := by rw [hs2e]; simp
    have hclk2 : clk s2 = clk s := by rw [hs2e, ← hclk]; exact clk_congr rfl rfl rfl
    have hdat2 : dat s2 = dat s := by rw [hs2e, ← dat_acceptStart s]; exact dat_congr rfl rfl rfl
    have hcases := runExtract_cases hleg2 (start := j) (by rw [hp2]; exact hj)
    have hread : ∃ w, FrameRead s j w ∧ runExtract j s2 = { acceptStart s with phase := .extract, work := w } := by
      rcases hcases with ⟨q, sr, nb, hq, hst, hx⟩ | ⟨sr, nb, r, hno, hst, hr, hx⟩
      · rw [hclk2, hp2] at hq
        rw [hclk2, hdat2] at hst
        refine ⟨_, Or.inl ⟨q, sr, nb, hq, hst, rfl⟩, ?_⟩
        rw [hx, hs2e]
        simp
      · rw [hp2, hclk2] at hno hst
        rw [hdat2] at hst
        rw [hp2] at hr
        refine ⟨_, Or.inr ⟨sr, nb, r, hno, hst, hr, rfl⟩, ?_⟩
        rw [hx, hs2e]
        simp [Working.cleared]
    obtain ⟨w, hw, hx⟩ := hread
    refine ⟨a, j, w, hab, hw, ?_⟩
    have hit : iterate s =
        (if !(runExtract j s2).work.eofFound || decide ((runExtract j s2).work.nbits < 21) then
          raise .incomplete (runExtract j s2)
        else
          let s4 := runAssemble { runDecode { runExtract j s2 with phase := .decode } with phase := .assemble }
          if !s4.work.valValid then raise .unrecognized s4
          else if s4.work.val.toNat < 1 then raise .zeroDiscard s4
          else runFilter s4.work.val { s4 with phase := .filter }) := by
      unfold iterate
      simp only [hs2]
      rw [he]
      simp
    have hcond : (!w.eofFound || decide (w.nbits < 21)) = !frameComplete w := by
      unfold frameComplete
      cases w.eofFound <;> simp
      by_cases h21 : w.nbits < 21 <;> simp [h21]
      omega
    rw [hit, hx]
    simp only [hcond]
    cases hfc : frameComplete w with
    | false => exact Or.inl ⟨rfl, rfl⟩
    | true =>
      right
      simp only [Bool.not_true, Bool.false_eq_true, if_false]
      have hs3 : ({ runDecode { ({ acceptStart s with phase := Phase.extract, work := w } : State) with
            phase := Phase.decode } with phase := Phase.assemble } : State)
          = assembling (decodedWork s.params.table w) (acceptStart s) := by
        rw [runDecode_work]
        simp [assembling]
      rw [hs3]
      have hp3 : (assembling (decodedWork s.params.table w) (acceptStart s)).params = s.params := by
        simp [assembling]
      have hc3 : frameComplete (assembling (decodedWork s.params.table w) (acceptStart s)).work = true := hfc
      have hw3 : decodedWork (assembling (decodedWork s.params.table w) (acceptStart s)).params.table
          (assembling (decodedWork s.params.table w) (acceptStart s)).work = decodedWork s.params.table w := by
        rw [hp3]
        rfl
      rcases runAssemble_complete hc3 with ⟨hall, ha⟩ | ⟨hall, ha⟩
      · rw [hw3] at hall ha
        rw [ha]
        right
        by_cases hlt : (assembledValue (decodedWork s.params.table w).dig).toNat < 1
        · left
          have hz := toNat_eq_zero_of_lt_one hlt
          refine ⟨trivial, hall, hz, ?_⟩
          rw [if_neg (by simp), if_pos hlt, hz]
          rfl
        · right
          refine ⟨trivial, hall, by omega, ?_⟩
          rw [if_neg (by simp), if_neg hlt]
          rfl
      · rw [hw3] at hall ha
        rw [ha]
        left
        refine ⟨trivial, hall, ?_⟩
        rw [if_pos (by simp)]
        have hv : ({ decodedWork s.params.table w with valValid := false, val := 0 } : Working)
            = decodedWork s.params.table w := by
          rcases hw with ⟨q, sr, nb, -, -, rfl⟩ | ⟨sr, nb, r, -, -, -, rfl⟩ <;> rfl
        rw [hv]
        rfl
  · rw [hclk] at ht hno
    simp only [acceptStart_params, acceptStart_work] at hr ht hno he
    left
    refine ⟨r, hr, ht, hno, ?_⟩
    unfold iterate
    rw [he]
    simp [Working.cleared, withWork]

end Sys2Proof.Machine
end

