-- ==== Sys2Proof/Laws/Memory.lean ====
section
/-! SUPPORT. The capture window memory: a read after a write, and that every operation on it keeps the
canonical form. -/

namespace Sys2Proof.Machine

theorem cellAt_insertCell_same (i : Nat) (b : BitVec 8) (m : Memory) :
    cellAt (insertCell i b m) i = some b := by
  induction m with
  | nil => simp [insertCell, cellAt]
  | cons c rest ih =>
    obtain ⟨k, c⟩ := c
    unfold insertCell
    split
    · simp [cellAt]
    · split
      · simp [cellAt]
      · next h => simp [cellAt, Ne.symm h, ih]

theorem cellAt_insertCell_other {i j : Nat} (b : BitVec 8) (m : Memory) (h : j ≠ i) :
    cellAt (insertCell i b m) j = cellAt m j := by
  induction m with
  | nil => simp [insertCell, cellAt, Ne.symm h]
  | cons c rest ih =>
    obtain ⟨k, c⟩ := c
    unfold insertCell
    split
    · simp [cellAt, Ne.symm h]
    · split
      · next hik =>
        subst hik
        simp [cellAt, Ne.symm h]
      · simp [cellAt, ih]

theorem wfFrom_insertCell {lo i : Nat} {b : BitVec 8} {m : Memory} (hlo : lo ≤ i) (hb : b.toNat < 4)
    (h : wfFrom lo m = true) : wfFrom lo (insertCell i b m) = true := by
  induction m generalizing lo with
  | nil => simp [insertCell, wfFrom, hlo, hb]
  | cons c rest ih =>
    obtain ⟨k, c⟩ := c
    simp only [wfFrom, Bool.and_eq_true, decide_eq_true_eq] at h
    obtain ⟨⟨hk, hc⟩, hrest⟩ := h
    unfold insertCell
    split
    · simp [wfFrom, hlo, hb, hc, hrest]
      omega
    · split
      · next hik =>
        subst hik
        simp [wfFrom, hlo, hb, hrest]
      · simp only [wfFrom, Bool.and_eq_true, decide_eq_true_eq]
        exact ⟨⟨hk, hc⟩, ih (by omega) hrest⟩

/-- Listing a sample keeps the canonical form. -/
theorem insertCell_wf {m : Memory} (i : Nat) (v : Sample) (h : m.wf = true) :
    (insertCell i (v.setWidth 8) m).wf = true := by
  refine wfFrom_insertCell (Nat.zero_le i) ?_ h
  have := v.isLt
  simp [BitVec.toNat_setWidth]
  omega

@[simp] theorem wf_nil : Memory.wf [] = true := rfl

/-- The Sampler's write keeps the canonical form. -/
theorem writeEntry_wf {s : State} (i : Nat) (v : Sample) (h : s.cw.wf = true) :
    (writeEntry i v s).cw.wf = true := by
  unfold writeEntry freshWindow
  split
  · exact insertCell_wf i v wf_nil
  · exact insertCell_wf i v h

/-- The acceptance of start keeps the canonical form. -/
theorem acceptStart_wf {s : State} (h : s.cw.wf = true) : (acceptStart s).cw.wf = true := by
  unfold acceptStart freshWindow
  split
  · exact wf_nil
  · exact h

/-- What the Sampler wrote is read back. -/
theorem sampleAt_writeEntry_same (i : Nat) (v : Sample) (s : State) :
    sampleAt (writeEntry i v s) i = v := by
  have h : (v.setWidth 8).setWidth 2 = v := by
    rw [BitVec.setWidth_setWidth_of_le v (by decide), BitVec.setWidth_eq]
  simp only [sampleAt, writeEntry, freshWindow_cwStale, cellAt_insertCell_same]
  exact h

/-- Every other entry reads as it did. -/
theorem sampleAt_writeEntry_other {i k : Nat} (v : Sample) (s : State) (h : k ≠ i) :
    sampleAt (writeEntry i v s) k = sampleAt s k := by
  rw [← sampleAt_freshWindow s]
  simp only [sampleAt, writeEntry, cellAt_insertCell_other _ _ h]

end Sys2Proof.Machine
end

