-- ==== Sys2Proof/Laws/PerInstr.lean ====
section
/-! SUPPORT. Statements made for each instruction: a well-formed instruction has a word (R101). -/

namespace Sys2Proof.Laws.Encoding

/-- Under every pattern table in which the instruction is well-formed, the encoder has a word for it. -/
def Statement (i : Instr) : Prop := ∀ t : Table, i.wellFormed t = true → (encode t i).isSome = true

/-- A row that is not shadowed is in the table, and its pattern is its word. -/
theorem row_encodes (t : Table) (r : Nat) (h : rowNotShadowed t r = true) : (encodeRow t r).isSome = true := by
  unfold rowNotShadowed at h
  split at h
  · next row hr => simp [encodeRow, hr]
  · cases h

theorem reset : Statement .reset := fun _ _ => rfl
theorem sync : Statement .sync := fun _ _ => rfl
theorem extract : Statement .extract := fun _ _ => rfl
theorem decode : Statement .decode := fun _ _ => rfl
theorem assemble : Statement .assemble := fun _ _ => rfl
theorem filter : Statement .filter := fun _ _ => rfl
theorem iterate : Statement .iterate := fun _ _ => rfl
theorem row0 : Statement .row0 := fun t h => row_encodes t 0 h
theorem row1 : Statement .row1 := fun t h => row_encodes t 1 h
theorem row2 : Statement .row2 := fun t h => row_encodes t 2 h
theorem row3 : Statement .row3 := fun t h => row_encodes t 3 h
theorem row4 : Statement .row4 := fun t h => row_encodes t 4 h
theorem row5 : Statement .row5 := fun t h => row_encodes t 5 h
theorem row6 : Statement .row6 := fun t h => row_encodes t 6 h
theorem row7 : Statement .row7 := fun t h => row_encodes t 7 h
theorem row8 : Statement .row8 := fun t h => row_encodes t 8 h
theorem row9 : Statement .row9 := fun t h => row_encodes t 9 h
theorem row10 : Statement .row10 := fun t h => row_encodes t 10 h
theorem row11 : Statement .row11 := fun t h => row_encodes t 11 h
theorem row12 : Statement .row12 := fun t h => row_encodes t 12 h
theorem unrecognized (g : Group) : Statement (.unrecognized g) := fun _ _ => rfl

end Sys2Proof.Laws.Encoding
end

