-- ==== Sys2Proof/Laws/Window.lean ====
section
/-! SUPPORT. What each operation does with another window memory that holds the same entries below N (R52): the
same, in every register; and what each instruction does to the window itself (R53, R236). -/

namespace Sys2Proof.Machine

/-- The entries below N are the same with the window memory m. -/
def SameBelow (m : Memory) (s : State) : Prop :=
  ∀ a, a < s.params.n → sampleAt { s with cw := m } a = sampleAt s a

theorem SameBelow.clk {m : Memory} {s : State} (h : SameBelow m s) :
    ∀ a, a < s.params.n → clk { s with cw := m } a = clk s a := fun a ha => by
  simp only [Machine.clk, h a ha]

theorem SameBelow.dat {m : Memory} {s : State} (h : SameBelow m s) :
    ∀ a, a < s.params.n → dat { s with cw := m } a = dat s a := fun a ha => by
  simp only [Machine.dat, h a ha]

/-- The entries depend on the window and the parameters alone. -/
theorem SameBelow.of_window {m : Memory} {s u : State} (h : SameBelow m s) (hc : u.cw = s.cw)
    (he : u.cwEpoch = s.cwEpoch) (hs : u.cwStale = s.cwStale) (hp : u.params = s.params) :
    SameBelow m u := by
  intro a ha
  simpa only [sampleAt, hc, he, hs] using h a (hp ▸ ha)

theorem runSync_withCw {s : State} {m : Memory}
    (h : ∀ a, a < s.params.n → clk { s with cw := m } a = clk s a) :
    runSync { s with cw := m } = { runSync s with cw := m } := by
  unfold runSync
  simp only [syncWindow_congr h]
  cases (syncWindow (clk s) s.params.n s.params.gap).result <;> rfl

theorem runExtract_withCw {s : State} {m : Memory} {start : Nat} (hs : start < s.params.n)
    (h : ∀ a, a < s.params.n → clk { s with cw := m } a = clk s a)
    (hd : ∀ a, start < a → a < s.params.n → fallingEdge (clk s) a = true →
      dat { s with cw := m } a = dat s a) :
    runExtract start { s with cw := m } = { runExtract start s with cw := m } := by
  unfold runExtract
  simp only [extractWindow_congr s.work.idx h hd hs]
  cases (extractWindow (clk s) (dat s) s.params.n s.params.gap start s.work.idx).2 <;> rfl

theorem runAssemble_withCw (s : State) (m : Memory) :
    runAssemble { s with cw := m } = { runAssemble s with cw := m } := by
  cases hf : frameComplete s.work with
  | false => rw [runAssemble_incomplete (s := { s with cw := m }) hf, runAssemble_incomplete hf]
  | true =>
    rcases runAssemble_complete hf with ⟨h, e⟩ | ⟨h, e⟩ <;>
      rcases runAssemble_complete (s := { s with cw := m }) hf with ⟨h', e'⟩ | ⟨h', e'⟩
    · rw [e, e']
    · exact absurd (h.symm.trans h') (by decide)
    · exact absurd (h.symm.trans h') (by decide)
    · rw [e, e']

theorem afterAssemble_withCw (s : State) (m : Memory) :
    afterAssemble { s with cw := m } = { afterAssemble s with cw := m } := by
  unfold afterAssemble
  simp only
  split
  · split <;> rfl
  · split <;> rfl

theorem runFilter_withCw (v : Value) (s : State) (m : Memory) :
    runFilter v { s with cw := m } = { runFilter v s with cw := m } := by
  unfold runFilter
  simp only
  cases (filterStep s.params.stab s.stability v).2 <;> rfl

theorem applyGroup_withCw (g : Group) (s : State) (m : Memory) :
    applyGroup g { s with cw := m } = { applyGroup g s with cw := m } := by
  unfold applyGroup nextGroup writeDigit
  simp only
  match s.group with
  | 0 => rfl
  | 1 => rfl
  | 2 => rfl

/-- The stages of ITERATE after EXTRACT (R182). -/
def afterFrame (s2 : State) : State :=
  if !s2.work.eofFound || decide (s2.work.nbits < 21) then raise .incomplete s2
  else
    let s3 := runDecode { s2 with phase := .decode }
    let s4 := runAssemble { s3 with phase := .assemble }
    if !s4.work.valValid then raise .unrecognized s4
    else if s4.work.val.toNat < 1 then raise .zeroDiscard s4
    else runFilter s4.work.val { s4 with phase := .filter }

/-- ITERATE is SYNC, EXTRACT and the stages after it. -/
theorem iterate_eq_afterFrame (s : State) :
    iterate s =
      if (runSync (acceptStart s)).work.syncFound then
        afterFrame (runExtract (runSync (acceptStart s)).work.syncIdx
          { runSync (acceptStart s) with phase := .extract })
      else raise .syncFail (runSync (acceptStart s)) := rfl

theorem afterFrame_withCw (s : State) (m : Memory) :
    afterFrame { s with cw := m } = { afterFrame s with cw := m } := by
  unfold afterFrame
  have e : runAssemble { (runDecode { s with phase := .decode, cw := m }) with phase := .assemble }
      = { runAssemble { (runDecode { s with phase := .decode }) with phase := .assemble } with cw := m } :=
    runAssemble_withCw { (runDecode { s with phase := .decode }) with phase := .assemble } m
  simp only [e]
  generalize runAssemble { (runDecode { s with phase := .decode }) with phase := .assemble } = u
  split
  · rfl
  · split
    · rfl
    · split
      · rfl
      · exact runFilter_withCw _ { u with phase := .filter } m

theorem iterate_withCw {s : State} {m : Memory} (hl : paramsLegal s.params = true) (h : SameBelow m s) :
    ∃ m', iterate { s with cw := m } = { iterate s with cw := m' } := by
  rcases Bool.eq_false_or_eq_true s.cwStale with hs | hs
  · have hf : acceptStart { s with cw := m } = acceptStart s := by simp [acceptStart, freshWindow, hs]
    have he : iterate { s with cw := m } = iterate s := by
      rw [iterate_eq_afterFrame, iterate_eq_afterFrame, hf]
    exact ⟨(iterate s).cw, he⟩
  · have hf : acceptStart { s with cw := m } = { acceptStart s with cw := m } := by
      simp [acceptStart, freshWindow, hs]
    have hS : runSync { acceptStart s with cw := m } = { runSync (acceptStart s) with cw := m } :=
      runSync_withCw (h.of_window (by simp [freshWindow, hs]) (by simp [freshWindow, hs]) (by simp [hs]) (by simp)).clk
    refine ⟨m, ?_⟩
    rw [iterate_eq_afterFrame, iterate_eq_afterFrame, hf, hS]
    have hlegal : paramsLegal (acceptStart s).params = true := by simpa using hl
    rcases runSync_cases hlegal with ⟨x, y, hxy, he⟩ | ⟨r, -, -, -, he⟩
    · rw [he]
      simp only [if_true]
      let u : State := { acceptStart s with
        phase := .extract
        work := { (acceptStart s).work with
          idx := y, run := (acceptStart s).params.gap, syncFound := true, syncIdx := y } }
      have hu : SameBelow m u :=
        h.of_window (by simp [u, freshWindow, hs]) (by simp [u, freshWindow, hs]) (by simp [u, hs]) (by simp [u])
      have hE := runExtract_withCw (s := u) (start := y) hxy.1.2.1 hu.clk (fun a _ ha _ => hu.dat a ha)
      exact (congrArg afterFrame hE).trans (afterFrame_withCw _ m)
    · rw [he]
      simp
      rfl

/-! What the instructions do to the window itself. -/

/-- CW and the parameters are as before, and the window stays in use or used up as it was, unless an iteration
has ended. -/
structure KeepsWindow (s t : State) : Prop where
  params : t.params = s.params
  cw     : t.cw = s.cw
  epoch  : t.cwEpoch = s.cwEpoch
  stale  : t.cwStale = s.cwStale ∨ (t.cwStale = true ∧ t.done = true ∧ t.busy = false)

theorem KeepsWindow.sampleAt {s t : State} (k : KeepsWindow s t) (h : t.cwStale = s.cwStale) (a : Nat) :
    sampleAt t a = sampleAt s a := sampleAt_congr k.cw k.epoch h a

theorem KeepsWindow.trans {s t u : State} (h : KeepsWindow s t) (hs : t.cwStale = s.cwStale)
    (k : KeepsWindow t u) : KeepsWindow s u :=
  ⟨k.params.trans h.params, k.cw.trans h.cw, k.epoch.trans h.epoch, k.stale.imp (·.trans hs) id⟩

theorem raise_keepsWindow (x : EarlyOutcome) (s : State) : KeepsWindow s (raise x s) :=
  ⟨rfl, rfl, rfl, .inr ⟨rfl, rfl, rfl⟩⟩

theorem runFilter_keepsWindow (v : Value) (s : State) : KeepsWindow s (runFilter v s) := by
  unfold runFilter
  simp only
  cases (filterStep s.params.stab s.stability v).2 <;> exact ⟨rfl, rfl, rfl, .inr ⟨rfl, rfl, rfl⟩⟩

theorem applyGroup_keepsWindow (g : Group) (s : State) : KeepsWindow s (applyGroup g s) := by
  unfold applyGroup nextGroup writeDigit
  simp only
  match s.group with
  | 0 | 1 | 2 => exact ⟨rfl, rfl, rfl, .inl rfl⟩

theorem applyRow_keepsWindow {r : Nat} {s t : State} (h : applyRow r s = .next t) : KeepsWindow s t := by
  obtain ⟨-, he⟩ := whenLegal_eq_next h
  cases hr : romRow s.params.table r with
  | none =>
    rw [hr] at he
    cases he
  | some row =>
    rw [hr] at he
    injection he with he
    subst he
    exact applyGroup_keepsWindow _ _

theorem afterSync_keepsWindow (s : State) : KeepsWindow s (afterSync (runSync s)) := by
  have h : KeepsWindow s (runSync s) ∧ (runSync s).cwStale = s.cwStale := by
    unfold runSync
    simp only
    split <;> exact ⟨⟨rfl, rfl, rfl, .inl rfl⟩, rfl⟩
  unfold afterSync
  split
  · exact h.1.trans h.2 ⟨rfl, rfl, rfl, .inl rfl⟩
  · exact h.1.trans h.2 (raise_keepsWindow _ _)

theorem afterExtract_keepsWindow (j : Nat) (s : State) : KeepsWindow s (afterExtract (runExtract j s)) := by
  have h : KeepsWindow s (runExtract j s) ∧ (runExtract j s).cwStale = s.cwStale := by
    unfold runExtract
    simp only
    split <;> exact ⟨⟨rfl, rfl, rfl, .inl rfl⟩, rfl⟩
  rcases afterExtract_cases (runExtract j s) with e | e <;> rw [e]
  · exact h.1.trans h.2 ⟨rfl, rfl, rfl, .inl rfl⟩
  · exact h.1.trans h.2 (raise_keepsWindow _ _)

theorem afterAssemble_keepsWindow (s : State) : KeepsWindow s (afterAssemble (runAssemble s)) := by
  have h : KeepsWindow s (runAssemble s) ∧ (runAssemble s).cwStale = s.cwStale := by
    rw [runAssemble_frame]
    exact ⟨⟨rfl, rfl, rfl, .inl rfl⟩, rfl⟩
  rcases afterAssemble_cases (runAssemble s) with e | ⟨x, e⟩ <;> rw [e]
  · exact h.1.trans h.2 ⟨rfl, rfl, rfl, .inl rfl⟩
  · exact h.1.trans h.2 (raise_keepsWindow _ _)

/-- A guarded next state is the one that is answered. -/
theorem eq_of_whenLegal_next {s u t : State} (h : whenLegal s (.next u) = .next t) : t = u :=
  Host.Outcome.next.inj (whenLegal_eq_next h).2.symm

/-- No instruction but RESET and ITERATE does more to the window than to end its use (R53, R236). -/
theorem exec_keepsWindow {i : Instr} {s t : State} (hi : i ≠ .iterate) (hr : i ≠ .reset)
    (h : exec i s = .next t) : KeepsWindow s t := by
  cases i with
  | reset => exact absurd rfl hr
  | iterate => exact absurd rfl hi
  | sync => exact eq_of_whenLegal_next h ▸ afterSync_keepsWindow s
  | extract =>
    simp only [exec, execExtract] at h
    split at h
    · exact eq_of_whenLegal_next h ▸ afterExtract_keepsWindow _ s
    · exact nomatch (whenLegal_eq_next h).2
  | decode => exact eq_of_whenLegal_next h ▸ ⟨rfl, rfl, rfl, .inl rfl⟩
  | assemble => exact eq_of_whenLegal_next h ▸ afterAssemble_keepsWindow s
  | filter =>
    simp only [exec, execFilter] at h
    split at h
    · exact eq_of_whenLegal_next h ▸ runFilter_keepsWindow _ s
    · exact nomatch (whenLegal_eq_next h).2
  | unrecognized g => exact eq_of_whenLegal_next h ▸ applyGroup_keepsWindow g s
  | row0 => exact applyRow_keepsWindow h
  | row1 => exact applyRow_keepsWindow h
  | row2 => exact applyRow_keepsWindow h
  | row3 => exact applyRow_keepsWindow h
  | row4 => exact applyRow_keepsWindow h
  | row5 => exact applyRow_keepsWindow h
  | row6 => exact applyRow_keepsWindow h
  | row7 => exact applyRow_keepsWindow h
  | row8 => exact applyRow_keepsWindow h
  | row9 => exact applyRow_keepsWindow h
  | row10 => exact applyRow_keepsWindow h
  | row11 => exact applyRow_keepsWindow h
  | row12 => exact applyRow_keepsWindow h

/-- ITERATE runs on the window in use, a new one where the last was used up, and uses it up. -/
theorem iterate_window {s : State} (h : paramsLegal s.params = true) :
    (iterate s).params = s.params ∧ (iterate s).cw = (freshWindow s).cw
      ∧ (iterate s).cwEpoch = (freshWindow s).cwEpoch ∧ (iterate s).cwStale = true
      ∧ (iterate s).done = true := by
  have key : ∀ x w, (raise x (withWork w (acceptStart s))).params = s.params
      ∧ (raise x (withWork w (acceptStart s))).cw = (freshWindow s).cw
      ∧ (raise x (withWork w (acceptStart s))).cwEpoch = (freshWindow s).cwEpoch
      ∧ (raise x (withWork w (acceptStart s))).cwStale = true
      ∧ (raise x (withWork w (acceptStart s))).done = true := fun x w => by simp
  rcases iterate_spec h with ⟨r, -, -, -, e⟩ |
    ⟨a, j, w, -, -, ⟨-, e⟩ | ⟨-, -, e⟩ | ⟨-, -, -, e⟩ | ⟨-, -, -, e⟩⟩ <;> rw [e]
  · exact key _ _
  · exact key _ _
  · exact key _ _
  · exact key _ _
  · unfold runFilter
    simp only
    split <;> simp

end Sys2Proof.Machine
end

