-- ==== Sys2Proof/Tests/Slice0.lean ====
section
/-! SUPPORT. The model's own tests: refused terms, words written out from the spec's encodings, one step of each
operation on the spec's vectors, and for every obligation with hypotheses a state that meets them. -/

open Sys2Proof Sys2Proof.Machine

namespace Sys2Proof.Tests

/-! ## Helpers -/

/-- The next state, if there is one. -/
def nextOf : Outcome → Option State
  | .next t => some t
  | .fault _ => none
  | .refused _ => none

/-- The reason of a refusal, if there is one. -/
def refusalOf : Outcome → Option Refusal
  | .next _ => none
  | .fault _ => none
  | .refused r => some r

/-- The machine after reset with N, GAP, STAB and DEFAULT_TABLE. -/
def machine (n gap stab : Nat) : State :=
  { State.reset with params := { n := n, gap := gap, stab := stab, table := defaultTable } }

/-- A machine with a written window in the notation of R82. -/
def withWindow (n gap stab clkBits datBits : Nat) : State :=
  fillFrom 0 (windowOf n clkBits datBits) (machine n gap stab)

/-- A machine with a complete frame in sr. -/
def withFrame (frame : Stream) : State :=
  { machine 49 4 3 with work := { Working.cleared with syncFound := true, sr := frame, nbits := 21, eofFound := true } }

/-- A machine with a candidate and a stability state (STAB = 3). -/
def withCandidateAnd (v : Value) (S : Stability) : State :=
  { machine 49 4 3 with stability := S, work := { Working.cleared with valValid := true, val := v } }

/-- W245 of 95_test_vectors.md, N = 49, GAP = 4, STAB = 3: the frame of the digits 2, 4, 5. -/
def w245 : State :=
  withWindow 49 4 3
    0b0000101010101010101010101010101010101010101010000
    0b0000010100010100010001010000010101000101000101000

/-- WUN of 95_test_vectors.md: the groups 1101101, 0110010, 1011011. -/
def wun : State :=
  withWindow 49 4 3
    0b0000101010101010101010101010101010101010101010000
    0b0000010100010100010001010000010001000101000101000

/-- V-IT-7 of 95_test_vectors.md: W245's clock line, the data line all 0. -/
def wZero : State := withWindow 49 4 3 0b0000101010101010101010101010101010101010101010000 0

/-- The results of an iteration that the vectors list, in their order. -/
structure Results where
  status   : Status
  syncIdx  : Nat
  nbits    : Nat
  eofIdx   : Nat
  digValid : Triple Bool
  dig      : Triple Digit
  valValid : Bool
  val      : Value
  after    : Stability
deriving DecidableEq, Repr

def results (t : State) : Results :=
  ⟨t.status, t.work.syncIdx, t.work.nbits, t.work.eofIdx, t.work.digValid, t.work.dig, t.work.valValid,
    t.work.val, t.stability⟩

/-! ## Well-formed terms (R97, R96) -/

/-- R97: row 10 of DEFAULT_TABLE is shadowed by row 8. -/
theorem test_shadowed_row_is_ill_formed : Instr.row10.wellFormed defaultTable = false := by decide

/-- R92 (b): a table with 12 rows has no row 12. -/
theorem test_missing_row_is_ill_formed : Instr.row12.wellFormed (defaultTable.take 12) = false := by decide

/-- R96: a group that a row has is not unrecognized. -/
theorem test_recognized_group_is_ill_formed : (Instr.unrecognized 0x7F#7).wellFormed defaultTable = false := by
  decide

theorem test_well_formed :
    Instr.row8.wellFormed defaultTable = true ∧ Instr.row12.wellFormed defaultTable = true
      ∧ (Instr.unrecognized 0x32#7).wellFormed defaultTable = true := by decide

/-! ## Words (R94, R99, R101) -/

/-- The OP rows of the opcode table, and the unused phase code 7. -/
theorem test_decode_op_words :
    [0b000, 0b001, 0b010, 0b011, 0b100, 0b101, 0b110, 0b111].map (decodeTableWord 3)
      = [some .reset, some .sync, some .extract, some .decode, some .assemble, some .filter, some .iterate,
         none] := by decide

/-- The GROUP7 rows, patterns of R94; row 10's word is row 8's. -/
theorem test_decode_row_words :
    [0b1111110, 0b0110000, 0b1101101, 0b1111001, 0b0110011, 0b1011011, 0b1011111, 0b1110000, 0b1111111,
      0b1111011, 0b1111111, 0b0110001, 0b0000000].map (decodeTableWord 7)
      = [some .row0, some .row1, some .row2, some .row3, some .row4, some .row5, some .row6, some .row7,
         some .row8, some .row9, some .row8, some .row11, some .row12] := by decide

/-- Row 10's word reaches row 10 under a table whose row 8 has another pattern (R97, R136). -/
theorem test_decode_row10_word :
    (decode (defaultTable.set 8 ⟨0b1111101#7, 8#4, false⟩) (.group 0b1111111#7)).toOption = some .row10 := by
  decide

/-- V-DE-5, V-DE-6, V-DE-7: no nearest match. -/
theorem test_decode_unrecognized_words :
    [0b0110010, 0b1000000, 0b0000001].map (decodeTableWord 7)
      = [some (.unrecognized 0x32#7), some (.unrecognized 0x40#7), some (.unrecognized 0x01#7)] := by decide

/-- The rom_word column of the opcode table (R91). -/
theorem test_rom_words :
    defaultTable.map (fun row => (romWord row).toNat)
      = [0xFC0, 0x602, 0xDA4, 0xF26, 0x668, 0xB6A, 0xBEC, 0xE0E, 0xFF0, 0xF72, 0xFE0, 0x622, 0x001] := by decide

/-! ## One step of each operation -/

/-- R37, R10: RESET clears what an iteration left and keeps the parameters. -/
theorem test_reset_clears :
    (nextOf (exec .reset { withFrame 0x1B59DB#21 with status := .accepted, phase := .done, done := true })).map
        (fun t => (t.work, t.status, t.phase, t.done, t.params.n))
      = some (Working.cleared, Status.none, Phase.idle, false, 49) := by decide

/-- V-SY-9, GAP = 4: only the first qualifying run is used. -/
theorem test_sync_first_run :
    (nextOf (exec .sync (withWindow 13 4 3 0b1110000100001 0))).map
        (fun t => (t.work.syncFound, t.work.syncIdx, t.work.idx, t.work.run, t.phase))
      = some (true, 6, 6, 4, Phase.extract) := by decide +kernel

/-- V-SY-10, GAP = 4: highs reset the count. -/
theorem test_sync_not_found :
    (nextOf (exec .sync (withWindow 12 4 3 0b000100010001 0))).map
        (fun t => (t.work.syncFound, t.work.syncIdx, t.work.idx, t.work.run, t.status))
      = some (false, 0, 11, 0, Status.syncFail) := by decide +kernel

/-- V-EX-7, GAP = 3: the bit is that of the first low sample of a pulse. -/
theorem test_extract_wide_pulses :
    (nextOf (exec .extract (withWindow 10 3 3 0b0110011000 0b0001100100))).map
        (fun t => (streamBit t.work.sr 0, streamBit t.work.sr 1, t.work.nbits, t.work.eofFound, t.work.eofIdx))
      = some (true, true, 2, true, 9) := by decide +kernel

/-- V-EX-10, GAP = 3: no edges, and the start sample is not counted. -/
theorem test_extract_start_sample :
    (nextOf (exec .extract (withWindow 5 3 3 0b00000 0))).map
        (fun t => (t.work.nbits, t.work.eofFound, t.work.eofIdx, t.status))
      = some (0, true, 3, Status.incomplete) := by decide +kernel

/-- R142, V-IT-5: all three groups are decoded although the second is unrecognized. -/
theorem test_decode_all_groups :
    (nextOf (exec .decode (withFrame 0x1B595B#21))).map (fun t => (t.work.digValid, t.work.dig, t.phase))
      = some (⟨true, false, true⟩, ⟨2, 0, 5⟩, Phase.assemble) := by decide

/-- V-DE-1 to V-DE-4: the digit each row's group gives, row 10's group row 8's digit. -/
theorem test_row_digits :
    [Instr.row0, .row1, .row2, .row3, .row4, .row5, .row6, .row7, .row8, .row9, .row10, .row11, .row12].map
        (fun i => (nextOf (exec i (machine 49 4 3))).map (fun t => t.work.dig.d0))
      = [some 0, some 1, some 2, some 3, some 4, some 5, some 6, some 7, some 8, some 9, some 8, some 1,
         some 0] := by decide

/-- R182: the loop over the groups writes the digit whose turn it is and goes on. -/
theorem test_row_takes_its_turn :
    (nextOf (exec .row4 { machine 49 4 3 with phase := .decode, group := 1 })).map
        (fun t => (t.work.digValid, t.work.dig, t.phase, t.group))
      = some (⟨false, true, false⟩, ⟨0, 4, 0⟩, Phase.decode, 2) := by decide

/-- V-DE-5: an unrecognized group clears its digit, and after group 2 comes P_ASSEMBLE. -/
theorem test_unrecognized_clears :
    (nextOf (exec (.unrecognized 0x32#7) { withFrame 0 with
        phase := .decode, group := 2
        work := { Working.cleared with digValid := ⟨true, true, true⟩, dig := ⟨1, 2, 3⟩ } })).map
        (fun t => (t.work.digValid, t.work.dig, t.phase, t.group))
      = some (⟨true, true, false⟩, ⟨1, 2, 0⟩, Phase.assemble, 0) := by decide

/-- V-AS-1, R158: 1101101 0110011 1011011 is 245. -/
theorem test_assemble_245 :
    (nextOf (exec .assemble (withFrame 0b110110101100111011011#21))).map
        (fun t => (t.work.dig, t.work.valValid, t.work.val, t.phase))
      = some (⟨2, 4, 5⟩, true, 245, Phase.filter) := by decide

/-- V-AS-5: no partial sum; V-AS-2: a blank display is discarded. -/
theorem test_assemble_invalid_and_zero :
    (nextOf (exec .assemble (withFrame 0x1B595B#21))).map (fun t => (t.work.valValid, t.work.val, t.status))
        = some (false, 0, Status.unrecognized)
      ∧ (nextOf (exec .assemble (withFrame 0))).map (fun t => (t.work.valValid, t.work.val, t.status))
        = some (true, 0, Status.zeroDiscard) := by decide

/-- V-FI-9, R170. -/
theorem test_filter_commits :
    (nextOf (exec .filter (withCandidateAnd 245 ⟨true, 245, 2, false, 0⟩))).map
        (fun t => (t.stability, t.commit, t.commitValue, t.status))
      = some (⟨true, 245, 3, true, 245⟩, true, 245, Status.accepted) := by decide

/-- V-FI-5, input 7, R169 (b): stable again on the value already committed. -/
theorem test_filter_does_not_commit_again :
    (nextOf (exec .filter (withCandidateAnd 245 ⟨true, 245, 2, true, 245⟩))).map
        (fun t => (t.stability, t.commit, t.commitValue))
      = some (⟨true, 245, 3, true, 245⟩, false, 0) := by decide

/-- V-IT-1, program P1. -/
theorem test_iterate_p1 :
    (nextOf (exec .iterate w245)).map results
      = some ⟨.accepted, 3, 21, 48, ⟨true, true, true⟩, ⟨2, 4, 5⟩, true, 245, ⟨true, 245, 1, false, 0⟩⟩ := by decide +kernel

/-- V-IT-5: one unrecognized group. -/
theorem test_iterate_unrecognized :
    (nextOf (exec .iterate wun)).map results
      = some ⟨.unrecognized, 3, 21, 48, ⟨true, false, true⟩, ⟨2, 0, 5⟩, false, 0, Stability.none⟩ := by
  decide +kernel

/-! ## Refusals beside the nearest accepted input (95_test_vectors.md, section 4) -/

/-- R11 (U2, U6): STAB = 1, GAP = 0 and N = 0 are refused; STAB = 2, GAP = 1 and N = 1 are not. -/
theorem test_parameter_ranges :
    refusalOf (exec .decode (machine 1 1 1)) = some .paramsOutOfRange
      ∧ refusalOf (exec .decode (machine 1 0 2)) = some .paramsOutOfRange
      ∧ refusalOf (exec .decode (machine 0 1 2)) = some .paramsOutOfRange
      ∧ refusalOf (exec .decode (machine 1 1 2)) = none := by decide

/-- R92 (U1): 12 rows, a last row that is not all-zero, a value 10, and two plain rows with one pattern. -/
theorem test_table_admissible :
    tableLegal defaultTable = true ∧ tableLegal (defaultTable.take 12) = false
      ∧ tableLegal (defaultTable.set 12 ⟨0b0000001#7, 0#4, true⟩) = false
      ∧ tableLegal (defaultTable.set 0 ⟨0b1111110#7, 10#4, false⟩) = false
      ∧ tableLegal (defaultTable.set 1 ⟨0b1111110#7, 1#4, false⟩) = false := by decide

/-- R169 (f) (U7) and R120 (U10): 0, 1000 and N are refused; 1, 999 and N - 1 are not. -/
theorem test_operand_ranges :
    refusalOf (exec .filter (withCandidateAnd 0 Stability.none)) = some .candidateOutOfRange
      ∧ refusalOf (exec .filter (withCandidateAnd 1000 Stability.none)) = some .candidateOutOfRange
      ∧ refusalOf (exec .filter (withCandidateAnd 1 Stability.none)) = none
      ∧ refusalOf (exec .filter (withCandidateAnd 999 Stability.none)) = none
      ∧ refusalOf (exec .extract { machine 4 3 3 with work := { Working.cleared with syncIdx := 4 } })
          = some .extractStartOutOfRange
      ∧ refusalOf (exec .extract { machine 4 3 3 with work := { Working.cleared with syncIdx := 3 } }) = none := by
  decide

/-! ## A word presented after reset is run by the next step -/

/-- Every word of the opcode table, presented after reset, is run and answers a next state. -/
theorem test_every_word_runs_after_reset :
    ([0, 1, 2, 3, 4, 5, 6].all fun w => (nextOf (step (State.reset.withFetchWord 3 w))).isSome) = true
      ∧ ([0x7E, 0x30, 0x6D, 0x79, 0x33, 0x5B, 0x5F, 0x70, 0x7F, 0x7B, 0x31, 0x00, 0x32].all fun w =>
          (nextOf (step (State.reset.withFetchWord 7 w))).isSome) = true := by decide +kernel

/-- A presented group is decoded into group 0. -/
theorem test_presented_group :
    (nextOf (step (State.reset.withFetchWord 7 0b1101101))).map (fun t => (t.work.digValid.d0, t.work.dig.d0))
      = some (true, 2) := by decide +kernel

/-! ## Witnesses: for each obligation with hypotheses a state that meets them all together -/

/-- What the scan finds is the first idle run. -/
theorem firstIdle_of_scan {c : Nat → Bool} {n gap j : Nat} (hgap : 1 ≤ gap)
    (h : (syncWindow c n gap).result = .found j) : ∃ a, IsFirstIdle c n gap a j := by
  rcases syncWindow_spec c n hgap with ⟨a, b, hab, he⟩ | ⟨r, -, -, -, he⟩
  · rw [he] at h
    cases h
    exact ⟨a, hab⟩
  · rw [he] at h
    cases h

/-- Where the scan finds none, every low run is too short. -/
theorem noIdle_of_scan {c : Nat → Bool} {n gap : Nat} (hgap : 1 ≤ gap)
    (h : (syncWindow c n gap).result = .notFound) : ∀ a b, IsLowRun c n a b → b - a + 1 < gap := by
  rcases syncWindow_spec c n hgap with ⟨a, b, -, he⟩ | ⟨r, -, -, hno, he⟩
  · rw [he] at h
    cases h
  · intro a b hab
    by_contra hlt
    exact hab.gap (by omega) hgap hno

/-- What the scan finds is the first gap, with the stream of the edges up to it. -/
theorem firstGap_of_scan {c d : Nat → Bool} {n gap s idx q : Nat} (hgap : 1 ≤ gap) (hs : s < n)
    (h : (extractWindow c d n gap s idx).2 = .eof q) :
    IsFirstGap c n gap s q ∧ IsStreamOf d (edgesIn c s q) (extractWindow c d n gap s idx).1.sr
      (extractWindow c d n gap s idx).1.nbits := by
  rcases extractWindow_spec c d idx hgap hs with ⟨q', hq, hst, -, -, he⟩ | ⟨-, -, -, -, he⟩
  · rw [h] at he
    cases he
    exact ⟨hq, hst⟩
  · rw [h] at he
    cases he

/-- Where the scan ends incomplete, there is no gap. -/
theorem noGap_of_scan {c d : Nat → Bool} {n gap s idx : Nat} (hgap : 1 ≤ gap) (hs : s < n)
    (h : (extractWindow c d n gap s idx).2 = .incomplete) : ∀ q, q < n → ¬ IsGapAt c gap s q := by
  rcases extractWindow_spec c d idx hgap hs with ⟨q', -, -, -, -, he⟩ | ⟨hno, -, -, -, he⟩
  · rw [h] at he
    cases he
  · exact hno

/-- w245 with CORE in P_EXTRACT after SYNC. -/
def w245Synced : State :=
  { w245 with phase := .extract, busy := true
              work := { Working.cleared with idx := 3, run := 4, syncFound := true, syncIdx := 3 } }

/-- R231, R236: a window written before rst stays in use; one that the aborted iteration was reading does not. -/
theorem test_reset_keeps_a_written_window :
    (nextOf (step (assertReset w245))).map (fun t => (t.cwStale, t.cw == w245.cw)) = some (false, true)
      ∧ (nextOf (step (assertReset w245Synced))).map (·.cwStale) = some true := by decide +kernel

/-- R236: entry 4, which the Sampler wrote for the window that has been used up, is a free value of the next one. -/
theorem test_used_up_window_is_free :
    sampleAt (raise .syncFail w245) 4 = Config.freeSample (w245.cwEpoch + 1) 4
      ∧ sampleAt w245 4 = 1 := by
  refine ⟨?_, by decide +kernel⟩
  rw [sampleAt_of_stale (raise_cwStale _ _), raise_cwEpoch]

/-- R236: SYNC presented on a used-up window runs on a new one. -/
theorem test_presented_sync_takes_a_new_window :
    let s := State.withFetchWord (raise .syncFail w245) 3 1
    (s.phase, s.cwStale, s.cwEpoch, s.cw) = (.sync, false, w245.cwEpoch + 1, []) := by decide +kernel

theorem witness_ResetGivesEveryRegisterItsResetValue : paramsLegal w245.params = true := by decide +kernel

theorem witness_RstAbortsAnyPhase :
    paramsLegal w245Synced.params = true ∧ (assertReset w245Synced).rst = true := by decide +kernel

/-- V-SY-1: a run of exactly GAP entries that ends at N - 1. -/
theorem witness_SyncFollowsItsClosedForm_found :
    ∃ a, IsFirstIdle (clk (withWindow 4 4 3 0b0000 0)) 4 4 a 3 :=
  firstIdle_of_scan (by decide) (by decide)

/-- V-SY-3: one entry short of GAP. -/
theorem witness_SyncFollowsItsClosedForm_notFound :
    ∀ a b, IsLowRun (clk (withWindow 4 4 3 0b0001 0)) 4 a b → b - a + 1 < 4 :=
  noIdle_of_scan (by decide) (by decide)

theorem witness_SyncIgnoresTheDataLine :
    ∀ i, i < 4 → clk { withWindow 4 4 3 0b0001 0b0000 with cw := (withWindow 4 4 3 0b0001 0b1111).cw } i
      = clk (withWindow 4 4 3 0b0001 0b0000) i := by decide

/-- V-EX-1: two bits, and a gap that ends at N - 1. -/
theorem witness_ExtractFollowsItsClosedForm_short :
    IsFirstGap (clk (withWindow 7 3 3 0b0101000 0b0010000)) 7 3 0 6 :=
  (firstGap_of_scan (d := dat (withWindow 7 3 3 0b0101000 0b0010000)) (idx := 0) (by decide) (by decide)
    (by decide)).1

/-- V-IT-1: 21 bits, and a gap that ends at N - 1. -/
theorem witness_ExtractFollowsItsClosedForm_complete :
    IsFirstGap (clk w245Synced) 49 4 3 48 ∧ (edgesIn (clk w245Synced) 3 48).length = 21 :=
  ⟨(firstGap_of_scan (d := dat w245Synced) (idx := 3) (by decide) (by decide) (by decide +kernel)).1,
    by decide +kernel⟩

/-- V-EX-3: the window ends one sample early. -/
theorem witness_ExtractFollowsItsClosedForm_incomplete :
    ∀ q, q < 6 → ¬ IsGapAt (clk (withWindow 6 3 3 0b010100 0b001000)) 3 0 q :=
  noGap_of_scan (d := dat (withWindow 6 3 3 0b010100 0b001000)) (idx := 0) (by decide) (by decide) (by decide)

/-- V-EX-11: a start index of N - 1, above which there is nothing. -/
theorem witness_ExtractFollowsItsClosedForm_lastIndex :
    ∀ q, q < 1 → ¬ IsGapAt (clk (withWindow 1 3 3 0b0 0b0)) 3 0 q :=
  noGap_of_scan (d := dat (withWindow 1 3 3 0b0 0b0)) (idx := 0) (by decide) (by decide) (by decide)

theorem witness_ExtractRefusesAStartOutsideTheWindow :
    paramsLegal (machine 4 3 3).params = true
      ∧ (machine 4 3 3).params.n
          ≤ ({ machine 4 3 3 with work := { Working.cleared with syncIdx := 4 } } : State).work.syncIdx := by
  decide

/-- V-EX-1 and V-EX-5: the windows differ in the data of index 1, a high sample. -/
theorem witness_ExtractReadsDataAtFallingEdgesOnly :
    let s := withWindow 7 3 3 0b0101000 0b0010000
    let m := (withWindow 7 3 3 0b0101000 0b0110000).cw
    (∀ i, i < 7 → clk { s with cw := m } i = clk s i)
      ∧ ∀ i, 0 < i → i < 7 → fallingEdge (clk s) i = true → dat { s with cw := m } i = dat s i := by
  refine ⟨by decide, ?_⟩
  have h : ∀ i, i < 7 → 0 < i →
      fallingEdge (clk (withWindow 7 3 3 0b0101000 0b0010000)) i = true →
      dat { withWindow 7 3 3 0b0101000 0b0010000 with cw := (withWindow 7 3 3 0b0101000 0b0110000).cw } i
        = dat (withWindow 7 3 3 0b0101000 0b0010000) i := by decide
  exact fun i h0 h7 => h i h7 h0

/-- GAP = 1; index 2 is the first low sample above the start index 0. -/
theorem witness_GapOneNeverCompletesAFrame :
    let s := withWindow 3 1 3 0b010 0b001
    paramsLegal s.params = true ∧ s.params.gap = 1 ∧ s.busy = false ∧ s.work.syncIdx < s.params.n
      ∧ clk s 2 = false ∧ clk s 1 = true := by decide

theorem witness_DecodeWritesTheFirstMatchOfEachGroup :
    IsFirstRow defaultTable (groupOf 0x1B595B#21 0) 2 ⟨0b1101101#7, 2#4, false⟩
      ∧ NoRowHas defaultTable (groupOf 0x1B595B#21 1) := by
  constructor
  · obtain ⟨row, h⟩ := (firstMatch_eq_some_iff defaultTable (groupOf 0x1B595B#21 0) 2).1 (by decide)
    have e : row = ⟨0b1101101#7, 2#4, false⟩ := (Option.some.inj h.1).symm
    exact e ▸ h
  · exact (firstMatch_eq_none_iff _ _).1 (by decide)

/-- The flag of row 12 cleared. -/
theorem witness_BlankFlagHasNoEffect :
    let t2 := defaultTable.set 12 ⟨0b0000000#7, 0#4, false⟩
    defaultTable ≠ t2
      ∧ defaultTable.map (fun row => (row.pattern, row.value)) = t2.map (fun row => (row.pattern, row.value))
      ∧ (nextOf (exec .decode (withFrame 0))).isSome = true := by decide

/-- DEFAULT_TABLE has no earlier all-zero row. -/
theorem witness_AllZeroGroupDecodesToZero :
    tableLegal defaultTable = true
      ∧ ∀ r row, r < 12 → romRow defaultTable r = some row → row.pattern ≠ 0 := by
  refine ⟨by decide, ?_⟩
  obtain ⟨row, h⟩ := (firstMatch_eq_some_iff defaultTable 0 12).1 (by decide)
  exact h.2.2

/-- An admissible table whose row 11 is all-zero too, with value 1. -/
theorem witness_AllZeroGroupDecodesToZero_earlierRow :
    tableLegal (defaultTable.set 11 ⟨0#7, 1#4, false⟩) = true
      ∧ ∃ row, IsFirstRow (defaultTable.set 11 ⟨0#7, 1#4, false⟩) 0 11 row :=
  ⟨by decide, (firstMatch_eq_some_iff _ _ _).1 (by decide)⟩

theorem witness_RowGroupsDecodeByFirstMatch :
    paramsLegal (machine 49 4 3).params = true ∧ (rowInstr 0).toOption = some .row0
      ∧ (rowInstr 10).toOption = some .row10 ∧ (rowInstr 12).toOption = some .row12 := by decide

theorem witness_UnrecognizedGroupClearsItsDigit :
    paramsLegal (machine 49 4 3).params = true ∧ NoRowHas (machine 49 4 3).params.table 0x32#7 :=
  ⟨by decide, (firstMatch_eq_none_iff _ _).1 (by decide)⟩

/-- Rows 8 and 10 of DEFAULT_TABLE. -/
theorem witness_ShadowedRowIsNeverDecoded :
    ∃ row row', romRow defaultTable 10 = some row ∧ romRow defaultTable 8 = some row'
      ∧ row'.pattern = row.pattern ∧ (rowInstr 10).toOption = some .row10 :=
  ⟨_, _, rfl, rfl, rfl, rfl⟩

theorem witness_DecodeOfEncodeIsTheInstruction :
    Instr.iterate.wellFormed defaultTable = true ∧ Instr.row11.wellFormed defaultTable = true
      ∧ (Instr.unrecognized 0x01#7).wellFormed defaultTable = true := by decide

theorem witness_DecodedInstructionsAreWellFormed :
    (decode defaultTable (.group 0b1101101#7)).toOption = some .row2
      ∧ (decode defaultTable (.op 0b110#3)).toOption = some .iterate := by decide

/-- V-AS-1, V-AS-2 and V-AS-4: 245, 0 and 999. -/
theorem witness_AssembleSumsTheThreeDigits :
    frameComplete (withFrame 0).work = true
      ∧ [0x1B59DB#21, 0, 0b111101111110111111011#21].map (fun sr => [0, 1, 2].map fun k =>
          decodeDigit defaultTable (groupOf sr k))
        = [[.digit 2, .digit 4, .digit 5], [.digit 0, .digit 0, .digit 0],
           [.digit 9, .digit 9, .digit 9]] := by decide

/-- V-AS-5: the tens group of WUN's frame. -/
theorem witness_OneUnrecognizedDigitSpoilsTheFrame :
    paramsLegal (withFrame 0x1B595B#21).params = true ∧ frameComplete (withFrame 0x1B595B#21).work = true
      ∧ decodeDigit (withFrame 0x1B595B#21).params.table (groupOf (withFrame 0x1B595B#21).work.sr 1)
          = .unrecognized := by decide

/-- V-AS-9 (21 bits and no gap), and 20 bits before the gap. -/
theorem witness_AssembleRejectsAnIncompleteFrame :
    ({ Working.cleared with nbits := 21 } : Working).eofFound = false
      ∧ ({ Working.cleared with nbits := 20, eofFound := true } : Working).nbits < 21 := by decide

/-- States that agree on the operands, complete and not, and differ in every other working register. -/
theorem witness_AssembleIsPure :
    let s1 := withFrame 0x1B59DB#21
    let s2 : State := { withFrame 0x1B59DB#21 with
      work := { s1.work with idx := 7, digValid := ⟨true, false, true⟩, dig := ⟨9, 0, 9⟩, val := 1 } }
    paramsLegal s1.params = true ∧ s1.work ≠ s2.work ∧ frameComplete s1.work = true
      ∧ s1.work.sr = s2.work.sr ∧ s1.work.nbits = s2.work.nbits ∧ s1.work.eofFound = s2.work.eofFound
      ∧ frameComplete ({ s1.work with nbits := 20 } : Working) = false
      ∧ (nextOf (exec .assemble s1)).isSome = true := by decide

theorem witness_AssembleKeepsTheDecodedDigits :
    (nextOf (exec .decode (withFrame 0x1B59DB#21))).isSome = true := by decide

/-- One stability state for each row of the table, STAB = 3, and the ends of the range of candidates. -/
theorem witness_FilterFollowsItsTransitionTable :
    paramsLegal (machine 49 4 3).params = true
      ∧ 1 ≤ (1 : Value).toNat ∧ (999 : Value).toNat ≤ 999
      ∧ Stability.none.candValid = false
      ∧ (let S : Stability := ⟨true, 245, 1, false, 0⟩
         S.candValid = true ∧ S.count < 3 ∧ (300 : Value) ≠ S.cand ∧ (245 : Value) = S.cand ∧ S.count + 1 < 3)
      ∧ (let S : Stability := ⟨true, 245, 2, false, 0⟩
         S.candValid = true ∧ (245 : Value) = S.cand ∧ S.count + 1 = 3 ∧ S.lcValid = false)
      ∧ (let S : Stability := ⟨true, 245, 2, true, 246⟩
         S.candValid = true ∧ (245 : Value) = S.cand ∧ S.count + 1 = 3 ∧ S.lc ≠ 245)
      ∧ (let S : Stability := ⟨true, 245, 2, true, 245⟩
         S.candValid = true ∧ (245 : Value) = S.cand ∧ S.count + 1 = 3 ∧ S.lcValid = true ∧ S.lc = 245)
      ∧ (let S : Stability := ⟨true, 245, 3, true, 245⟩
         S.candValid = true ∧ S.count = 3 ∧ (246 : Value) ≠ S.cand ∧ (245 : Value) = S.cand) := by decide

theorem witness_FilterRefusesValuesOutsideItsRange :
    (0 : Value).toNat = 0 ∧ 999 < (1000 : Value).toNat ∧ paramsLegal (machine 49 4 3).params = true := by decide

/-- R168 (a) and (c): STAB = 10, ten and nine times from reset. -/
theorem witness_RepeatedValueCommitsExactlyOnce :
    2 ≤ 10 ∧ Stability.none.candValid = false ∧ 9 < 10 ∧ 10 ≤ 10 := by decide

theorem witness_OnlyAcceptedFramesReachTheFilter :
    ∃ t, exec .filter (withCandidateAnd 245 Stability.none) = .next t
      ∧ t.stability ≠ (withCandidateAnd 245 Stability.none).stability :=
  ⟨_, rfl, by decide⟩

theorem witness_CommitsAreNewCandidates :
    ∃ t, exec .filter (withCandidateAnd 245 ⟨true, 245, 2, true, 246⟩) = .next t
      ∧ t.done = true ∧ t.commit = true :=
  ⟨_, rfl, by decide⟩

/-- start is raised, and each phase, or each group, is a step of its own. -/
theorem witness_IterateIsThePhasesInTurn :
    let s := raiseStart { w245 with cut := .group }
    paramsLegal s.params = true ∧ s.rst = false ∧ s.start = true ∧ s.busy = false ∧ s.phase = .idle
      ∧ s.cut ≠ .iteration := by decide +kernel

/-- Windows that end with each of the outcomes: V-IT-1, V-IT-5, V-IT-4 (a short one), an idle run alone, V-IT-7. -/
theorem witness_IterateLeavesWhatItsOutcomeSays :
    [w245, wun, withWindow 4 4 3 0b0001 0, withWindow 5 4 3 0b00001 0, wZero].map
        (fun s => (paramsLegal s.params, s.busy, (nextOf (exec .iterate s)).map (·.status)))
      = [(true, false, some .accepted), (true, false, some .unrecognized), (true, false, some .syncFail),
         (true, false, some .incomplete), (true, false, some .zeroDiscard)] := by decide +kernel

theorem witness_StartWhileBusyIsIgnored :
    w245Synced.busy = true ∧ paramsLegal w245Synced.params = true := by decide +kernel

/-- The second state carries the registers of an earlier iteration. -/
theorem witness_IterationsShareOnlyTheStabilityState :
    let s1 := withWindow 4 4 3 0b0001 0
    let s2 : State := { withWindow 4 4 3 0b0001 0 with
      phase := .done, done := true, status := .zeroDiscard, work := (withFrame 0).work }
    s1.params = s2.params ∧ s1.stability = s2.stability ∧ s1.busy = false ∧ s2.busy = false
      ∧ s1.work ≠ s2.work ∧ (∀ i, i < 4 → sampleAt s1 i = sampleAt s2 i) := by
  decide

/-- No idle run; an idle run and no gap; a gap and no bits; and w245. -/
theorem witness_FirstFailureIsReported :
    (∀ a b, IsLowRun (clk (withWindow 4 4 3 0b0001 0)) 4 a b → b - a + 1 < 4)
      ∧ (∃ a, IsFirstIdle (clk (withWindow 5 4 3 0b00001 0)) 5 4 a 3)
      ∧ (∀ q, q < 5 → ¬ IsGapAt (clk (withWindow 5 4 3 0b00001 0)) 4 3 q)
      ∧ (∃ a, IsFirstIdle (clk (withWindow 9 4 3 0b000010000 0)) 9 4 a 3)
      ∧ IsFirstGap (clk (withWindow 9 4 3 0b000010000 0)) 9 4 3 8
      ∧ (∃ a, IsFirstIdle (clk w245) 49 4 a 3)
      ∧ IsFirstGap (clk w245) 49 4 3 48 :=
  ⟨noIdle_of_scan (by decide) (by decide), firstIdle_of_scan (by decide) (by decide),
    noGap_of_scan (d := dat (withWindow 5 4 3 0b00001 0)) (idx := 0) (by decide) (by decide) (by decide),
    firstIdle_of_scan (by decide) (by decide),
    (firstGap_of_scan (d := dat (withWindow 9 4 3 0b000010000 0)) (idx := 0) (by decide) (by decide)
      (by decide)).1,
    firstIdle_of_scan (by decide) (by decide +kernel),
    (firstGap_of_scan (d := dat w245) (idx := 0) (by decide) (by decide) (by decide +kernel)).1⟩

/-- Program P1. -/
theorem witness_FrameOnTheWireIsAssembled :
    ∃ a sr nb, paramsLegal w245.params = true ∧ w245.busy = false
      ∧ IsFirstIdle (clk w245) 49 4 a 3 ∧ IsFirstGap (clk w245) 49 4 3 48
      ∧ 21 ≤ (edgesIn (clk w245) 3 48).length
      ∧ IsStreamOf (dat w245) (edgesIn (clk w245) 3 48) sr nb
      ∧ decodeDigit defaultTable (groupOf sr 0) = .digit 2
      ∧ decodeDigit defaultTable (groupOf sr 1) = .digit 4
      ∧ decodeDigit defaultTable (groupOf sr 2) = .digit 5 := by
  obtain ⟨a, ha⟩ := firstIdle_of_scan (c := clk w245) (n := 49) (gap := 4) (j := 3) (by decide)
    (by decide +kernel)
  obtain ⟨hq, hst⟩ := firstGap_of_scan (c := clk w245) (d := dat w245) (n := 49)
    (gap := 4) (s := 3) (idx := 0) (q := 48) (by decide) (by decide) (by decide +kernel)
  exact ⟨a, _, _, by decide +kernel, by decide +kernel, ha, hq, by decide +kernel, hst, by decide +kernel, by decide +kernel,
    by decide +kernel⟩

/-- V-IT-7, the frame of 21 zero bits: the clause of the value 0. -/
theorem witness_FrameOnTheWireIsAssembled_zero :
    ∃ a sr nb, paramsLegal wZero.params = true ∧ wZero.busy = false
      ∧ IsFirstIdle (clk wZero) 49 4 a 3 ∧ IsFirstGap (clk wZero) 49 4 3 48
      ∧ 21 ≤ (edgesIn (clk wZero) 3 48).length
      ∧ IsStreamOf (dat wZero) (edgesIn (clk wZero) 3 48) sr nb
      ∧ ∀ k : Fin 3, decodeDigit defaultTable (groupOf sr k) = .digit 0 := by
  obtain ⟨a, ha⟩ := firstIdle_of_scan (c := clk wZero) (n := 49) (gap := 4) (j := 3) (by decide)
    (by decide +kernel)
  obtain ⟨hq, hst⟩ := firstGap_of_scan (c := clk wZero) (d := dat wZero) (n := 49)
    (gap := 4) (s := 3) (idx := 0) (q := 48) (by decide) (by decide) (by decide +kernel)
  exact ⟨a, _, _, by decide +kernel, by decide +kernel, ha, hq, by decide +kernel, hst, by decide +kernel⟩

/-- V-IT-1: N = 2 * GAP + 41 exactly. -/
theorem witness_CompleteFramesNeedTheWaveform :
    w245.busy = false ∧ w245.params.n = 2 * w245.params.gap + 41
      ∧ (nextOf (exec .iterate w245)).map (·.status) = some .accepted := by decide +kernel

/-- A fresh window and a used-up one, and the last index N - 1. -/
theorem witness_SamplerWriteIsReadBack :
    w245.busy = false ∧ w245.cwStale = false ∧ 48 < w245.params.n ∧ (machine 49 4 3).busy = false
      ∧ (machine 49 4 3).cwStale = true := by decide

theorem witness_SamplerMayNotWriteABusyCore :
    w245Synced.busy = true ∧ w245.busy = false ∧ w245.params.n ≤ 49 := by decide

theorem witness_NoInstructionWritesMemoryOrParameters :
    (nextOf (exec .sync (withWindow 4 4 3 0b0001 0))).isSome = true
      ∧ (nextOf (exec .iterate w245Synced)).isSome = true ∧ w245Synced.busy = true
      ∧ (nextOf (exec .iterate (machine 4 4 3))).isSome = true ∧ (machine 4 4 3).busy = false := by decide +kernel

/-- A used-up window, of which the cells are still there, and an iteration on it. -/
theorem witness_UsedUpWindowKeepsNoEntry :
    (raise .syncFail w245).cwStale = true ∧ (raise .syncFail w245).cw ≠ []
      ∧ (nextOf (exec .assemble (raise .syncFail w245))).isSome = true
      ∧ w245.busy = false ∧ (nextOf (exec .iterate w245)).isSome = true := by decide +kernel

theorem witness_WindowIsConstantWhileBusy :
    w245Synced.busy = true ∧ (nextOf (step w245Synced)).isSome = true := by decide +kernel

theorem witness_MemReadAnswersInRangeAndRefusesAbove :
    48 < w245.params.n ∧ w245.params.n ≤ 49 ∧ tableLegal defaultTable = true := by decide +kernel

/-- W245, and the same window with an entry at index N beside it. -/
theorem witness_EntriesAboveTheWindowHaveNoInfluence :
    let m := insertCell 49 3 w245.cw
    m ≠ w245.cw ∧ (∀ a, a < 49 → sampleAt { w245 with cw := m } a = sampleAt w245 a)
      ∧ (nextOf (exec .iterate w245)).isSome = true := by decide +kernel

/-- A phase's word, a group's word, rst, and an accepted start. -/
theorem witness_StepRunsTheDecodedInstruction :
    fetch w245Synced = .word (.op 2)
      ∧ (decode w245Synced.params.table (.op 2)).toOption = some .extract
      ∧ (assertReset w245).rst = true
      ∧ (w245Synced.rst = false ∧ w245Synced.phase.isBusy = true ∧ w245Synced.phase ≠ .decode)
      ∧ (let s : State := { withFrame 0 with phase := .decode, cut := .group }
         s.rst = false ∧ s.phase = .decode ∧ s.cut = .group)
      ∧ (let s := raiseStart w245
         s.rst = false ∧ s.phase = .idle ∧ s.start = true ∧ s.busy = false ∧ s.cut = .iteration) := by decide +kernel

theorem witness_CoreWaitsForStart :
    paramsLegal State.reset.params = true ∧ State.reset.rst = false ∧ State.reset.start = false
      ∧ State.reset.phase = .idle := by decide

/-- With a window written, and with one that is used up. -/
theorem witness_AcceptedStartClearsTheIteration :
    let s := raiseStart { w245 with cut := .operation }
    let u := raiseStart { machine 49 4 3 with cut := .operation }
    paramsLegal s.params = true ∧ s.rst = false ∧ s.start = true ∧ s.busy = false ∧ s.phase = .idle
      ∧ s.cut ≠ .iteration ∧ s.cwStale = false ∧ u.cwStale = true := by decide +kernel

theorem witness_PresentedWordRunsNext :
    State.reset.params.table = defaultTable ∧ decodeTableWord 7 0b1101101 = some .row2
      ∧ decodeTableWord 3 0b110 = some .iterate := by decide

/-- CORE waiting with start raised, each phase a step of its own. -/
def waiting : State := raiseStart { machine 49 4 3 with cut := .operation }

theorem waiting_inv : waiting.Inv := by
  refine ⟨?_, ?_, ?_, ?_, ?_, ?_, ?_, ?_, ⟨?_, ?_, ?_, ?_, ?_, ?_⟩, fun h => absurd h (by decide)⟩ <;> decide

theorem witness_PhasesFollowTheTransferTable :
    waiting.Inv ∧ waiting.rst = false ∧ waiting.cut = .operation ∧ waiting.start = true :=
  ⟨waiting_inv, rfl, rfl, rfl⟩

theorem witness_OperationsWriteTheirOwnRegisters :
    [Instr.sync, .extract, .decode, .assemble].map (fun i =>
        (nextOf (exec i (withWindow 4 4 3 0b0000 0))).isSome) = [true, true, true, true]
      ∧ (nextOf (exec .filter (withCandidateAnd 1 Stability.none))).isSome = true := by decide

theorem witness_IllegalParametersAreRefused :
    (machine 0 1 2).params.n = 0 ∧ (machine 1 0 2).params.gap = 0 ∧ (machine 1 1 1).params.stab < 2
      ∧ tableLegal [] = false := by decide

theorem witness_EveryStepKeepsTheInvariant : waiting.Inv ∧ ∃ t, step waiting = .next t :=
  ⟨waiting_inv, _, rfl⟩

theorem witness_NothingStopsALegalMachine : waiting.Inv := waiting_inv

theorem witness_EnvironmentKeepsTheInvariant :
    waiting.Inv ∧ (nextOf (samplerWrite 48 3 waiting)).isSome = true := ⟨waiting_inv, by decide⟩

theorem witness_RegistersFitTheirWidths : waiting.Inv := waiting_inv

end Sys2Proof.Tests
end

section
/-! PROOFS. The scope of the machine (R11, R13): what an illegal configuration answers, and the widths of the index
and count registers. -/

namespace Sys2Proof.Machine

/-! The guard of the legal parameters stands before every meaning (R11). -/

/-- Whatever an instruction does, it does behind the guard of the legal parameters. -/
theorem exec_eq_whenLegal (i : Instr) (s : State) : ∃ r, exec i s = whenLegal s r := by
  cases i <;> exact ⟨_, rfl⟩

theorem exec_of_illegal {s : State} (h : paramsLegal s.params = false) (i : Instr) :
    exec i s = .refused .paramsOutOfRange := by
  obtain ⟨r, hr⟩ := exec_eq_whenLegal i s
  exact hr.trans (whenLegal_of_illegal h r)

/-- The four ways of R11 to leave the legal ranges. -/
theorem paramsLegal_eq_false_iff (p : Params) :
    paramsLegal p = false ↔ p.n = 0 ∨ p.gap = 0 ∨ p.stab < 2 ∨ tableLegal p.table = false := by
  simp only [← Bool.not_eq_true, paramsLegal_iff, not_and_or, Nat.not_le, Nat.lt_one_iff]

/-- Settles O52: every meaning is guarded, and each of the four conditions makes the guard refuse. -/
theorem illegalParametersAreRefused : Obligations.IllegalParametersAreRefused :=
  fun i s h => exec_of_illegal ((paramsLegal_eq_false_iff s.params).2 h) i

/-! The widths of R13 hold the bounds of the invariant. -/

/-- The defining property of the rounded-up logarithm: 2 to it reaches x. -/
theorem le_two_pow_ceilLog2 (x : Nat) : x ≤ 2 ^ Config.ceilLog2 x := by
  unfold Config.ceilLog2
  split
  · next h => simpa using h
  · have : x - 1 < 2 ^ (Nat.log2 (x - 1) + 1) := Nat.lt_log2_self
    omega

/-- A capture window index fits AW bits. -/
theorem lt_two_pow_addrWidth {p : Params} {i : Nat} (h : i < p.n) : i < 2 ^ p.addrWidth :=
  calc i < p.n := h
    _ ≤ 2 ^ Config.ceilLog2 p.n := le_two_pow_ceilLog2 p.n
    _ ≤ 2 ^ p.addrWidth := Nat.pow_le_pow_right (by decide) (Nat.le_max_right 1 _)

/-- A low-run count of at most GAP fits RW bits. -/
theorem lt_two_pow_runWidth {p : Params} {r : Nat} (h : r ≤ p.gap) : r < 2 ^ p.runWidth :=
  Nat.lt_of_lt_of_le (Nat.lt_succ_of_le h) (le_two_pow_ceilLog2 (p.gap + 1))

/-- A stability count of at most STAB fits KW bits. -/
theorem lt_two_pow_countWidth {p : Params} {c : Nat} (h : c ≤ p.stab) : c < 2 ^ p.countWidth :=
  Nat.lt_of_lt_of_le (Nat.lt_succ_of_le h) (le_two_pow_ceilLog2 (p.stab + 1))

/-- R21, R23: the count is at most STAB, with a candidate and without one. -/
theorem stabilityInv_count_le {stab : Nat} {S : Stability} (h : stabilityInv stab S) : S.count ≤ stab := by
  obtain ⟨hnone, hsome, -, -⟩ := h
  cases hv : S.candValid with
  | false => exact (hnone hv).1 ▸ Nat.zero_le stab
  | true =>
    obtain ⟨-, hle, -, -⟩ := hsome hv
    exact hle

/-- Settles O57: each bound of the invariant is below the power of two of the register's width. -/
theorem registersFitTheirWidths : Obligations.RegistersFitTheirWidths := by
  intro s hinv
  obtain ⟨-, -, -, -, hstab, -, ⟨hidx, hrun, hsync, -, hnbits, -, heof, -⟩, -⟩ := hinv
  exact ⟨lt_two_pow_addrWidth hidx, lt_two_pow_addrWidth hsync, lt_two_pow_addrWidth heof,
    lt_two_pow_runWidth hrun, lt_two_pow_countWidth (stabilityInv_count_le hstab), by omega⟩

end Sys2Proof.Machine
end

section
/-! PROOFS. What a step can do, said once: the word the sequencer fetches (R181), and the transition each answered
step makes; and ITERATE as its operations in turn (R182). -/

namespace Sys2Proof.Machine

/-! The word the sequencer fetches. -/

theorem fetch_of_rst {s : State} (hr : s.rst = true) : fetch s = .word (.op 0) := by
  simp [fetch, hr]

/-- In P_IDLE and P_DONE only start is looked at. -/
theorem fetch_of_waiting {s : State} (hr : s.rst = false) (hp : s.phase = .idle ∨ s.phase = .done) :
    fetch s = fetchWaiting s := by
  rcases hp with hp | hp <;> simp [fetch, hr, hp]

theorem fetch_of_busy {s : State} (hr : s.rst = false) (hb : s.phase.isBusy = true)
    (hc : s.phase = .decode → s.cut ≠ .group) : fetch s = .word (.op s.phase.code) := by
  cases hp : s.phase with
  | idle | done =>
    rw [hp] at hb
    cases hb
  | sync | extract | assemble | filter => simp [fetch, hr, hp, Phase.code]
  | decode => simp [fetch, fetchDecode, hr, hp, hc hp, Phase.code]

theorem fetch_of_group {s : State} (hr : s.rst = false) (hp : s.phase = .decode) (hc : s.cut = .group) :
    fetch s = .word (.group (groupOf s.work.sr s.group)) := by
  simp [fetch, fetchDecode, hr, hp, hc]

theorem fetchWaiting_iterate {s : State} (hs : s.start = true) (hb : s.busy = false) (hc : s.cut = .iteration) :
    fetchWaiting s = .word (.op 6) := by
  simp [fetchWaiting, hs, hb, hc]

theorem fetchWaiting_accept {s : State} (hs : s.start = true) (hb : s.busy = false) (hc : s.cut ≠ .iteration) :
    fetchWaiting s = .accept := by
  simp [fetchWaiting, hs, hb, hc]

/-- Without a start that is accepted, CORE waits. -/
theorem fetchWaiting_wait {s : State} (h : (s.start && !s.busy) = false) : fetchWaiting s = .wait := by
  simp [fetchWaiting, h]

/-- Settles O46: the step of a word is exec of its instruction, and each way to a word is a case of the fetch. -/
theorem stepRunsTheDecodedInstruction : Obligations.StepRunsTheDecodedInstruction :=
  ⟨fun _ _ _ hf hd => step_of_word hf hd,
    fun _ hr => fetch_of_rst hr,
    fun _ hr hb hc => fetch_of_busy hr hb hc,
    fun _ hr hp hc => fetch_of_group hr hp hc,
    fun _ hr hp hs hb hc => (fetch_of_waiting hr hp).trans (fetchWaiting_iterate hs hb hc)⟩

/-! What the instructions with an operand check answer. -/

theorem execExtract_eq_next {s t : State} (h : execExtract s = .next t) :
    s.work.syncIdx < s.params.n ∧ t = afterExtract (runExtract s.work.syncIdx s) := by
  obtain ⟨-, h⟩ := whenLegal_eq_next h
  split at h
  · next hs => exact ⟨of_decide_eq_true hs, (Host.Outcome.next.inj h).symm⟩
  · cases h

theorem execFilter_eq_next {s t : State} (h : execFilter s = .next t) :
    candidateLegal s.work.val = true ∧ t = runFilter s.work.val s := by
  obtain ⟨-, h⟩ := whenLegal_eq_next h
  split at h
  · next hv => exact ⟨hv, (Host.Outcome.next.inj h).symm⟩
  · cases h

theorem applyRow_eq_next {r : Nat} {s t : State} (h : applyRow r s = .next t) :
    ∃ row, romRow s.params.table r = some row ∧ t = applyGroup row.pattern s := by
  obtain ⟨-, h⟩ := whenLegal_eq_next h
  split at h
  · next row hr => exact ⟨row, hr, (Host.Outcome.next.inj h).symm⟩
  · cases h

/-- The instruction of row r applies DECODE to row r's group. -/
theorem exec_of_rowInstr {r : Nat} {i : Instr} (h : rowInstr r = .ok i) (s : State) : exec i s = applyRow r s := by
  unfold rowInstr at h
  split at h <;> cases h <;> rfl

/-- The instruction a segment group decodes to applies DECODE to that very group. -/
theorem exec_of_decodeGroup {g : Group} {i : Instr} {s t : State} (hd : decodeGroup s.params.table g = .ok i)
    (h : exec i s = .next t) : t = applyGroup g s := by
  unfold decodeGroup at hd
  split at hd
  · next r hr =>
    obtain ⟨row, hrow, hpat, -⟩ := (firstMatch_eq_some_iff _ _ _).1 hr
    obtain ⟨row', hrow', rfl⟩ := applyRow_eq_next ((exec_of_rowInstr hd s).symm.trans h)
    obtain rfl : row = row' := Option.some.inj (hrow.symm.trans hrow')
    rw [hpat]
  · cases hd
    exact eq_of_whenLegal_next h

/-! The transitions of an answered step, from the state u with the input pins taken (R181). -/

/-- Where an answered step can lead. -/
inductive Transition (u : State) : State → Prop where
  | reset : Transition u (resetRegisters u)
  | wait (hp : u.phase = .idle ∨ u.phase = .done) : Transition u u
  | accept (hp : u.phase = .idle ∨ u.phase = .done) (hb : u.busy = false) : Transition u (acceptStart u)
  | iterate (hp : u.phase = .idle ∨ u.phase = .done) (hb : u.busy = false) : Transition u (iterate u)
  | sync (hp : u.phase = .sync) : Transition u (afterSync (runSync u))
  | extract (hp : u.phase = .extract) (hs : u.work.syncIdx < u.params.n) :
      Transition u (afterExtract (runExtract u.work.syncIdx u))
  | decode (hp : u.phase = .decode) : Transition u { runDecode u with phase := .assemble, group := 0 }
  | group (hp : u.phase = .decode) : Transition u (applyGroup (groupOf u.work.sr u.group) u)
  | assemble (hp : u.phase = .assemble) : Transition u (afterAssemble (runAssemble u))
  | filter (hp : u.phase = .filter) (hv : candidateLegal u.work.val = true) :
      Transition u (runFilter u.work.val u)

theorem transition_of_waiting {s t : State} (hr : s.rst = false) (hp : s.phase = .idle ∨ s.phase = .done)
    (h : step s = .next t) : Transition (takeInputs s) t := by
  have hf := fetch_of_waiting hr hp
  cases hstart : s.start && !s.busy with
  | false =>
    rw [step_of_wait (hf.trans (fetchWaiting_wait hstart))] at h
    obtain rfl := eq_of_whenLegal_next h
    exact .wait hp
  | true =>
    obtain ⟨hs, hb⟩ : s.start = true ∧ s.busy = false := by simpa using hstart
    by_cases hc : s.cut = .iteration
    · rw [step_of_word (i := .iterate) (hf.trans (fetchWaiting_iterate hs hb hc)) rfl] at h
      have ht : t = if (takeInputs s).busy then takeInputs s else iterate (takeInputs s) := eq_of_whenLegal_next h
      rw [takeInputs_busy, hb] at ht
      exact ht ▸ .iterate hp hb
    · rw [step_of_accept (hf.trans (fetchWaiting_accept hs hb hc))] at h
      exact eq_of_whenLegal_next h ▸ .accept hp hb

theorem transition_of_decode {s t : State} (hr : s.rst = false) (hp : s.phase = .decode)
    (h : step s = .next t) : Transition (takeInputs s) t := by
  by_cases hc : s.cut = .group
  · have hf := fetch_of_group hr hp hc
    cases hd : decodeGroup s.params.table (groupOf s.work.sr s.group) with
    | error e => simp [step, hf, Sys2Proof.decode, hd] at h
    | ok i =>
      rw [step_of_word hf hd] at h
      exact exec_of_decodeGroup (s := takeInputs s) hd h ▸ .group hp
  · have hf := fetch_of_busy hr (by rw [hp]; rfl) (fun _ => hc)
    rw [hp] at hf
    rw [step_of_word (i := .decode) hf rfl] at h
    exact eq_of_whenLegal_next h ▸ .decode hp

/-- In a working phase but P_DECODE the step is exec of the phase's instruction. -/
theorem step_of_phase {s : State} {p : Phase} {i : Instr} (hr : s.rst = false) (hp : s.phase = p)
    (hb : p.isBusy = true) (hd : p ≠ .decode) (hi : decodeOp p.code = .ok i) : step s = exec i (takeInputs s) := by
  subst hp
  exact step_of_word (fetch_of_busy hr hb (fun h => absurd h hd)) hi

/-- Every answered step is one of the transitions. -/
theorem step_transition {s t : State} (h : step s = .next t) : Transition (takeInputs s) t := by
  cases hr : s.rst with
  | true =>
    rw [step_of_word (i := .reset) (fetch_of_rst hr) rfl] at h
    exact eq_of_whenLegal_next h ▸ .reset
  | false =>
    cases hp : s.phase with
    | idle => exact transition_of_waiting hr (.inl hp) h
    | done => exact transition_of_waiting hr (.inr hp) h
    | decode => exact transition_of_decode hr hp h
    | sync =>
      rw [step_of_phase (i := .sync) hr hp rfl nofun rfl] at h
      exact eq_of_whenLegal_next h ▸ .sync hp
    | extract =>
      rw [step_of_phase (i := .extract) hr hp rfl nofun rfl] at h
      obtain ⟨hs, rfl⟩ := execExtract_eq_next h
      exact .extract hp hs
    | assemble =>
      rw [step_of_phase (i := .assemble) hr hp rfl nofun rfl] at h
      exact eq_of_whenLegal_next h ▸ .assemble hp
    | filter =>
      rw [step_of_phase (i := .filter) hr hp rfl nofun rfl] at h
      obtain ⟨hv, rfl⟩ := execFilter_eq_next h
      exact .filter hp hv

/-! ITERATE is its operations in turn (R182). -/

theorem afterExtract_complete {s : State} (hg : s.group = 0) (hf : frameComplete s.work = true) :
    afterExtract s = { s with phase := .decode } := by
  cases s
  subst hg
  exact if_pos hf

theorem afterExtract_incomplete {s : State} (hf : frameComplete s.work = false) :
    afterExtract s = raise .incomplete s := by
  simp [afterExtract, hf]

theorem afterAssemble_invalid {s : State} (hv : s.work.valValid = false) (hf : frameComplete s.work = true) :
    afterAssemble s = raise .unrecognized s := by
  simp [afterAssemble, hv, hf]

theorem afterAssemble_zero {s : State} (hv : s.work.valValid = true) (h0 : s.work.val = 0) :
    afterAssemble s = raise .zeroDiscard s := by
  simp [afterAssemble, hv, h0]

theorem afterAssemble_candidate {s : State} (hv : s.work.valValid = true) (h0 : s.work.val ≠ 0) :
    afterAssemble s = { s with phase := .filter } := by
  rw [afterAssemble, if_pos hv, if_neg h0]

/-- ASSEMBLE does not write what makes the frame complete. -/
theorem runAssemble_frameComplete (s : State) : frameComplete (runAssemble s).work = frameComplete s.work := by
  unfold runAssemble sumDigits
  split
  · split <;> rfl
  · rfl

/-- ITERATE's test of the frame (R182) is R124's. -/
theorem incomplete_test_eq (w : Working) : (!w.eofFound || decide (w.nbits < 21)) = !frameComplete w := by
  simp [frameComplete, Bool.not_and, ← decide_not]

section
variable {P : State → Prop}

/-- What DECODE, ASSEMBLE and FILTER keep, the stages of ITERATE after EXTRACT keep. -/
theorem afterFrame_keeps
    (hdecode : ∀ u, u.phase = .decode → P u → P { runDecode u with phase := .assemble, group := 0 })
    (hassemble : ∀ u, u.phase = .assemble → P u → P (afterAssemble (runAssemble u)))
    (hfilter : ∀ u, u.phase = .filter → P u → P (runFilter u.work.val u))
    {e : State} (hg : e.group = 0) (he : P (afterExtract e)) : P (afterFrame e) := by
  unfold afterFrame
  rw [incomplete_test_eq]
  cases hf : frameComplete e.work with
  | false => exact afterExtract_incomplete hf ▸ he
  | true =>
    rw [afterExtract_complete hg hf] at he
    have hd : P { runDecode { e with phase := .decode } with phase := .assemble } := by
      have := hdecode _ rfl he
      rwa [← hg] at this
    have ha := hassemble _ rfl hd
    have hfa : frameComplete (runAssemble { runDecode { e with phase := .decode } with phase := .assemble }).work
        = true := (runAssemble_frameComplete _).trans hf
    simp only [Bool.not_true, Bool.false_eq_true, if_false]
    generalize runAssemble { runDecode { e with phase := .decode } with phase := .assemble } = a at ha hfa ⊢
    cases hv : a.work.valValid with
    | false => exact afterAssemble_invalid hv hfa ▸ ha
    | true =>
      simp only [Bool.not_true, Bool.false_eq_true, if_false]
      split
      · next hlt => exact afterAssemble_zero hv (toNat_eq_zero_of_lt_one hlt) ▸ ha
      · next hge =>
        rw [afterAssemble_candidate hv (fun h0 => hge (by simp [h0]))] at ha
        exact hfilter _ rfl ha

/-- What the accepted start establishes and each operation keeps in its phase, ITERATE establishes. -/
theorem iterate_keeps {s : State} (haccept : P (acceptStart s))
    (hsync : ∀ u, u.phase = .sync → P u → P (afterSync (runSync u)))
    (hextract : ∀ u, u.phase = .extract → P u → P (afterExtract (runExtract u.work.syncIdx u)))
    (hdecode : ∀ u, u.phase = .decode → P u → P { runDecode u with phase := .assemble, group := 0 })
    (hassemble : ∀ u, u.phase = .assemble → P u → P (afterAssemble (runAssemble u)))
    (hfilter : ∀ u, u.phase = .filter → P u → P (runFilter u.work.val u)) : P (iterate s) := by
  have hs := hsync _ rfl haccept
  rw [iterate_eq_afterFrame]
  unfold afterSync at hs
  split
  · next hfound =>
    rw [if_pos hfound] at hs
    refine afterFrame_keeps hdecode hassemble hfilter ?_ (hextract _ rfl hs)
    rw [runExtract_frame, withWork_group, runSync_frame]
    rfl
  · next hfound =>
    rwa [if_neg hfound] at hs

end

end Sys2Proof.Machine
end

section
/-! PROOFS. The invariant of every reachable state (R22 to R32, R164, R183) is kept by every transition: first its parts
(the stability state under FILTER, the bounds of the working registers under each operation's writes), then one lemma
for each operation, and ITERATE from those. -/

namespace Sys2Proof.Machine

/-! The stability state (R21, R23, R164). -/

theorem filterState_eq_stable_iff (stab : Nat) (S : Stability) :
    filterState stab S = .stable ↔ S.candValid = true ∧ stab ≤ S.count := by
  unfold filterState
  cases S.candValid <;> simp

/-- Another count within its bounds, for the same candidate. -/
theorem stabilityInv_withCount {stab n : Nat} {S : Stability} (h : stabilityInv stab S) (hc : S.candValid = true)
    (h1 : 1 ≤ n) (hn : n ≤ stab) : stabilityInv stab { S with count := n } := by
  obtain ⟨-, hcand, hlc⟩ := h
  obtain ⟨-, -, hv⟩ := hcand hc
  exact ⟨fun hf => absurd (hc.symm.trans hf) (by decide), fun _ => ⟨h1, hn, hv⟩, hlc⟩

/-- FILTER of a candidate keeps the bounds of the stability state. -/
theorem filterStep_stabilityInv {stab : Nat} {S : Stability} {v : Value} (hstab : 2 ≤ stab)
    (hv : candidateLegal v = true) (h : stabilityInv stab S) : stabilityInv stab (filterStep stab S v).1 := by
  have hstab1 : 1 ≤ stab := Nat.le_of_succ_le hstab
  have hbounds := (candidateLegal_iff v).1 hv
  rcases filterStep_cases stab S v with
    ⟨-, e⟩ | ⟨hc, -, hlt, e⟩ | ⟨hc, -, -, -, e⟩ | ⟨hc, -, -, -, e⟩ | ⟨hc, -, -, e⟩ <;> rw [e]
  · obtain ⟨-, -, hlc⟩ := h
    exact ⟨nofun, fun _ => ⟨Nat.le_refl 1, hstab1, hbounds⟩, hlc⟩
  · exact stabilityInv_withCount h hc (Nat.le_add_left 1 _) (Nat.le_of_lt hlt)
  · obtain ⟨hnone, hcand, -⟩ := stabilityInv_withCount h hc hstab1 (Nat.le_refl stab)
    exact ⟨hnone, hcand, nofun, fun _ => hbounds⟩
  · exact stabilityInv_withCount h hc hstab1 (Nat.le_refl stab)
  · exact h

/-- R164: FILTER enters Stable with the candidate committed, now or before. -/
theorem filterStep_stableIsCommitted {stab : Nat} {S : Stability} {v : Value} (hstab : 2 ≤ stab)
    (h : stableIsCommitted stab S) : stableIsCommitted stab (filterStep stab S v).1 := by
  intro hst
  rcases filterStep_cases stab S v with
    ⟨-, e⟩ | ⟨-, -, hlt, e⟩ | ⟨-, hv, -, -, e⟩ | ⟨-, hv, -, hd, e⟩ | ⟨-, -, -, e⟩ <;> rw [e] at hst ⊢
  · obtain ⟨-, hle⟩ := (filterState_eq_stable_iff _ _).1 hst
    exact absurd hstab (Nat.not_le.2 (Nat.lt_succ_of_le hle))
  · obtain ⟨-, hle⟩ := (filterState_eq_stable_iff _ _).1 hst
    exact absurd hlt (Nat.not_lt.2 hle)
  · exact ⟨rfl, hv⟩
  · simpa [differsFromCommitted, hv] using hd
  · exact h hst

/-- What FILTER commits is the last committed value from then on. -/
theorem filterStep_commit {stab : Nat} {S : Stability} {v y : Value} (h : (filterStep stab S v).2 = .commit y) :
    (filterStep stab S v).1.lcValid = true ∧ y = (filterStep stab S v).1.lc := by
  rcases filterStep_cases stab S v with
    ⟨-, e⟩ | ⟨-, -, -, e⟩ | ⟨-, -, -, -, e⟩ | ⟨-, -, -, -, e⟩ | ⟨-, -, -, e⟩ <;> rw [e] at h ⊢ <;> cases h
  exact ⟨rfl, rfl⟩

/-! The working registers (R22, R25 to R30): each operation's writes keep the bounds. -/

theorem workInv_cleared {p : Params} (h : paramsLegal p = true) : workInv p Working.cleared := by
  have hn := paramsLegal_n h
  exact ⟨hn, Nat.zero_le _, hn, fun _ => rfl, Nat.zero_le _, fun k _ _ => by simp [Working.cleared, streamBit], hn,
    fun _ => rfl, by decide, by decide, by decide, by decide, fun _ => rfl⟩

theorem cleared_digits : digitsCleared Working.cleared := by decide

/-- SYNC writes window indices and a count of at most GAP. -/
theorem workInv_sync {p : Params} {w : Working} {i r j : Nat} {f : Bool} (h : workInv p w) (hi : i < p.n)
    (hr : r ≤ p.gap) (hj : j < p.n) (hf : f = false → j = 0) :
    workInv p { w with idx := i, run := r, syncFound := f, syncIdx := j } := by
  obtain ⟨-, -, -, -, hrest⟩ := h
  exact ⟨hi, hr, hj, hf, hrest⟩

/-- EXTRACT writes a stream of at most 21 bits, window indices and a count of at most GAP. -/
theorem workInv_extract {p : Params} {w : Working} {d : Nat → Bool} {edges : List Nat} {i r nb q : Nat}
    {sr : Stream} {f : Bool} (h : workInv p w) (hi : i < p.n) (hr : r ≤ p.gap) (hs : IsStreamOf d edges sr nb)
    (hq : q < p.n) (hf : f = false → q = 0) :
    workInv p { w with idx := i, run := r, sr := sr, nbits := nb, eofFound := f, eofIdx := q } := by
  obtain ⟨-, -, hj, hsf, -, -, -, -, hrest⟩ := h
  obtain ⟨hnb, -, hzero⟩ := hs
  exact ⟨hi, hr, hj, hsf, hnb ▸ Nat.min_le_left 21 _, fun k hk hle => hzero k hle hk, hq, hf, hrest⟩

theorem workInv_digitInv {p : Params} {w : Working} (h : workInv p w) (k : Fin 3) :
    digitInv (tripleGet w.digValid k) (tripleGet w.dig k) := by
  obtain ⟨-, -, -, -, -, -, -, -, h0, h1, h2, -, -⟩ := h
  match k with
  | 0 => exact h0
  | 1 => exact h1
  | 2 => exact h2

/-- DECODE writes digits of at most 9, and 0 where a valid bit is 0. -/
theorem workInv_decode {p : Params} {w : Working} {dv : Triple Bool} {d : Triple Digit} (h : workInv p w)
    (hd : ∀ k, digitInv (tripleGet dv k) (tripleGet d k)) : workInv p { w with digValid := dv, dig := d } := by
  obtain ⟨hi, hr, hj, hsf, hnb, hsr, hq, hef, -, -, -, hval⟩ := h
  exact ⟨hi, hr, hj, hsf, hnb, hsr, hq, hef, hd 0, hd 1, hd 2, hval⟩

/-- ASSEMBLE writes a value of at most 999, and 0 where it is not valid. -/
theorem workInv_assemble {p : Params} {w : Working} {b : Bool} {v : Value} (h : workInv p w) (hv : v.toNat ≤ 999)
    (hz : b = false → v = 0) : workInv p { w with valValid := b, val := v } := by
  obtain ⟨hi, hr, hj, hsf, hnb, hsr, hq, hef, h0, h1, h2, -, -⟩ := h
  exact ⟨hi, hr, hj, hsf, hnb, hsr, hq, hef, h0, h1, h2, hv, hz⟩

/-- R29, R137: a result of DECODE is a digit, and 0 where the group is unrecognized. -/
theorem digitInv_decodeDigit {t : Table} (h : tableLegal t = true) (g : Group) :
    digitInv (digitValid (decodeDigit t g)) (digitValue (decodeDigit t g)) := by
  refine ⟨fun hv => ?_, digitValue_le h g⟩
  cases hd : decodeDigit t g with
  | digit v =>
    rw [hd] at hv
    cases hv
  | unrecognized => rfl

theorem workInv_decodedWork {p : Params} {w : Working} (ht : tableLegal p.table = true) (h : workInv p w) :
    workInv p (decodedWork p.table w) :=
  workInv_decode h fun k => by
    obtain ⟨hv, hd⟩ := decodedWork_digits p.table w k
    change digitInv (tripleGet (decodedWork p.table w).digValid k) (tripleGet (decodedWork p.table w).dig k)
    rw [hv, hd]
    exact digitInv_decodeDigit ht _

/-- R152, R19: the value of three digits is at most 999. -/
theorem assembledValue_le {p : Params} {w : Working} (h : workInv p w) : (assembledValue w.dig).toNat ≤ 999 := by
  obtain ⟨-, h0⟩ := workInv_digitInv h 0
  obtain ⟨-, h1⟩ := workInv_digitInv h 1
  obtain ⟨-, h2⟩ := workInv_digitInv h 2
  rw [tripleGet_zero] at h0
  rw [tripleGet_one] at h1
  rw [tripleGet_two] at h2
  rw [assembledValue_toNat h0 h1 h2]
  omega

/-! The invariant's two parts that an iteration does not touch, and how the whole is built from them. -/

/-- What holds between iterations as within one. -/
structure Standing (s : State) : Prop where
  legal     : paramsLegal s.params = true
  wf        : s.cw.wf = true
  stability : stabilityInv s.params.stab s.stability
  committed : stableIsCommitted s.params.stab s.stability

/-- What holds while an iteration runs, whatever its phase. -/
structure Running (s : State) : Prop extends Standing s where
  window : s.cwStale = false
  busy   : s.busy = true
  notYet : s.done = false ∧ s.commit = false ∧ s.commitValue = 0

/-- An operation that does not end the iteration writes working registers, the phase and the group in turn. -/
theorem Running.goOn {s : State} (h : Running s) (w : Working) (p : Phase) (k : Fin 3) :
    Running { s with work := w, phase := p, group := k } :=
  ⟨⟨h.legal, h.wf, h.stability, h.committed⟩, h.window, h.busy, h.notYet⟩

theorem State.Inv.standing {s : State} (h : s.Inv) : Standing s := by
  obtain ⟨hl, hwf, -, -, hst, hsc, -⟩ := h
  exact ⟨hl, hwf, hst, hsc⟩

theorem State.Inv.group {s : State} (h : s.Inv) : s.phase ≠ .decode → s.group = 0 := by
  obtain ⟨-, -, -, hg, -⟩ := h
  exact hg

theorem State.Inv.work {s : State} (h : s.Inv) : workInv s.params s.work := by
  obtain ⟨-, -, -, -, -, -, hw, -⟩ := h
  exact hw

theorem State.Inv.phase {s : State} (h : s.Inv) : phaseInv s := by
  obtain ⟨-, -, -, -, -, -, -, -, hp, -⟩ := h
  exact hp

theorem State.Inv.running {s : State} (h : s.Inv) (hb : s.phase.isBusy = true) : Running s := by
  have hst := h.standing
  obtain ⟨-, -, hwin, -, -, -, -, ⟨hbusy, hdone, hcommit, hvalue⟩, -⟩ := h
  have hnd : s.phase ≠ .done := fun hp => by
    rw [hp] at hb
    cases hb
  have hnc : s.commit = false := Bool.eq_false_iff.2 fun hc => hnd (hcommit hc).1
  exact ⟨hst, hwin (hbusy.trans hb), hbusy.trans hb, hdone.trans (decide_eq_false hnd), hnc, hvalue hnc⟩

/-- The invariant within an iteration. -/
theorem Running.inv {s : State} (h : Running s) (hb : s.phase.isBusy = true) (hg : s.phase ≠ .decode → s.group = 0)
    (hw : workInv s.params s.work) (hp : phaseInv s) : s.Inv := by
  obtain ⟨⟨hl, hwf, hst, hsc⟩, hwin, hbusy, hdone, hnc, hvalue⟩ := h
  have hnd : s.phase ≠ .done := fun hp => by
    rw [hp] at hb
    cases hb
  exact ⟨hl, hwf, fun _ => hwin, hg, hst, hsc, hw,
    ⟨hbusy.trans hb.symm, hdone.trans (decide_eq_false hnd).symm, fun h => absurd (hnc.symm.trans h) (by decide),
      fun _ => hvalue⟩, hp, fun h => absurd h hnd⟩

/-- The invariant at the end of an iteration: what is left to show is R183 for its outcome. -/
theorem Standing.endIteration_inv {s : State} {st : Status} {c : Bool} {v : Value} (h : Standing s)
    (hw : workInv s.params s.work)
    (hc : c = true → st = .accepted ∧ s.stability.lcValid = true ∧ v = s.stability.lc) (hv : c = false → v = 0)
    (ho : outcomeInv (endIteration st c v s)) : (endIteration st c v s).Inv := by
  obtain ⟨hl, hwf, hst, hsc⟩ := h
  exact ⟨hl, hwf, nofun, fun _ => rfl, hst, hsc, hw, ⟨rfl, rfl, fun h => ⟨rfl, hc h⟩, hv⟩,
    ⟨nofun, nofun, nofun, nofun, nofun,
      nofun⟩, fun _ => ho⟩

/-- The invariant after an early outcome. -/
theorem Standing.raise_inv {s : State} {x : EarlyOutcome} (h : Standing s) (hw : workInv s.params s.work)
    (ho : outcomeInv (raise x s)) : (raise x s).Inv :=
  h.endIteration_inv hw (nofun) (fun _ => rfl) ho

/-! Reset and the accepted start. -/

theorem resetRegisters_inv {s : State} (h : s.Inv) : (resetRegisters s).Inv := by
  obtain ⟨hl, hwf, -⟩ := h
  exact ⟨hl, hwf, nofun, fun _ => rfl,
    ⟨fun _ => ⟨rfl, rfl⟩, nofun, fun _ => rfl, nofun⟩, nofun,
    workInv_cleared hl, ⟨rfl, rfl, nofun, fun _ => rfl⟩,
    ⟨fun _ => ⟨rfl, rfl, rfl⟩, nofun, nofun, nofun, nofun,
      nofun⟩, nofun⟩

theorem acceptStart_inv {s : State} (h : s.Inv) : (acceptStart s).Inv := by
  have hs := h.standing
  have hr : Running (acceptStart s) :=
    ⟨⟨by simpa using hs.legal, acceptStart_wf hs.wf, by simpa using hs.stability, by simpa using hs.committed⟩,
      acceptStart_cwStale s, rfl, rfl, rfl, rfl⟩
  exact hr.inv rfl (fun _ => rfl) (workInv_cleared hr.legal)
    ⟨nofun, fun _ => rfl, nofun, nofun, nofun,
      nofun⟩

/-! One lemma for each operation, in its phase. -/

theorem afterSync_inv {s : State} (hp : s.phase = .sync) (h : s.Inv) : (afterSync (runSync s)).Inv := by
  have hr := h.running (by rw [hp]; rfl)
  have hn := paramsLegal_n hr.legal
  have hg : s.group = 0 := h.group (by simp [hp])
  obtain ⟨-, hsync, -⟩ := h.phase
  rcases runSync_cases hr.legal with ⟨a, b, ⟨⟨-, hb, -⟩, -⟩, e⟩ | ⟨r, hlt, -, -, e⟩ <;> rw [e]
  · refine (hr.goOn _ .extract s.group).inv rfl (fun _ => hg) (workInv_sync h.work hb (Nat.le_refl _) hb nofun)
      ⟨nofun, nofun, fun _ => ?_, nofun, nofun, nofun⟩
    rw [hsync hp]
    exact ⟨rfl, ⟨rfl, rfl, rfl, rfl⟩, cleared_digits, rfl, rfl⟩
  · refine (hr.goOn _ s.phase s.group).raise_inv (x := .syncFail)
      (workInv_sync h.work (Nat.sub_lt hn Nat.one_pos) (Nat.le_of_lt hlt) hn (fun _ => rfl))
      ⟨nofun, fun _ => ?_, nofun, nofun, nofun, nofun⟩
    rw [hsync hp]
    exact ⟨rfl, ⟨rfl, rfl, rfl, rfl⟩, cleared_digits, ⟨rfl, rfl⟩, rfl⟩

/-- The transfer out of P_EXTRACT, with the frame complete or not. -/
theorem afterExtract_inv_of_running {u : State} (hr : Running u) (hw : workInv u.params u.work)
    (hfound : u.work.syncFound = true) (hdig : digitsCleared u.work) (hval : valCleared u.work) :
    (afterExtract u).Inv := by
  cases hf : frameComplete u.work with
  | false =>
    rw [afterExtract_incomplete hf]
    exact hr.raise_inv hw ⟨nofun, nofun, fun _ => ⟨hfound, hf, hdig, hval, rfl⟩, nofun, nofun, nofun⟩
  | true =>
    rw [afterExtract, if_pos hf]
    refine (hr.goOn u.work .decode 0).inv rfl (fun h => absurd rfl h) hw
      ⟨nofun, nofun, nofun, fun _ => ⟨hfound, hf, hval, fun k => ?_⟩, nofun, nofun⟩
    rw [if_neg (Fin.not_lt_zero k)]
    exact hdig k

theorem afterExtract_inv {s : State} (hp : s.phase = .extract) (h : s.Inv) :
    (afterExtract (runExtract s.work.syncIdx s)).Inv := by
  have hr := h.running (by rw [hp]; rfl)
  have hw := h.work
  obtain ⟨-, -, hext, -⟩ := h.phase
  obtain ⟨hfound, -, hdig, hval⟩ := hext hp
  obtain ⟨hidx, -, hj, -⟩ := h.work
  rcases runExtract_cases hr.legal hj with
    ⟨q, sr, nb, ⟨hq, -⟩, hst, e⟩ | ⟨sr, nb, r, -, hst, hlt, e⟩ <;> rw [e]
  · exact afterExtract_inv_of_running (hr.goOn _ s.phase s.group)
      (workInv_extract hw hq (Nat.le_refl _) hst hq nofun) hfound hdig hval
  · have hi : (if s.work.syncIdx + 1 < s.params.n then s.params.n - 1 else s.work.idx) < s.params.n := by
      split <;> omega
    exact afterExtract_inv_of_running (hr.goOn _ s.phase s.group)
      (workInv_extract hw hi (Nat.le_of_lt hlt) hst (Nat.zero_lt_of_lt hj) (fun _ => rfl)) hfound hdig hval

theorem runDecode_inv {s : State} (hp : s.phase = .decode) (h : s.Inv) :
    State.Inv { runDecode s with phase := .assemble, group := 0 } := by
  have hr := h.running (by rw [hp]; rfl)
  obtain ⟨-, -, -, hdec, -⟩ := h.phase
  obtain ⟨hfound, hf, hval, -⟩ := hdec hp
  rw [runDecode_work]
  exact (hr.goOn (decodedWork s.params.table s.work) .assemble 0).inv rfl (fun _ => rfl)
    (workInv_decodedWork (paramsLegal_table hr.legal) h.work)
    ⟨nofun, nofun, nofun, nofun, fun _ => ⟨⟨hfound, hf, decodedWork_digits _ _⟩, hval⟩, nofun⟩

/-- The working registers after DECODE of group k alone. -/
def decodedGroup (t : Table) (k : Fin 3) (w : Working) : Working :=
  { w with
    digValid := tripleSet w.digValid k (digitValid (decodeDigit t (groupOf w.sr k)))
    dig := tripleSet w.dig k (digitValue (decodeDigit t (groupOf w.sr k))) }

theorem decodedGroup_same (t : Table) (k : Fin 3) (w : Working) : digitDecoded t (decodedGroup t k w) k :=
  ⟨tripleGet_set_same _ _ _, tripleGet_set_same _ _ _⟩

theorem decodedGroup_other {t : Table} {k j : Fin 3} {w : Working} (h : j ≠ k) :
    tripleGet (decodedGroup t k w).digValid j = tripleGet w.digValid j
      ∧ tripleGet (decodedGroup t k w).dig j = tripleGet w.dig j :=
  ⟨tripleGet_set_other _ _ h, tripleGet_set_other _ _ h⟩

/-- With the groups below k decoded and the others cleared, DECODE of group k adds group k to the decoded ones. -/
theorem decodedGroup_progress {t : Table} {w : Working} {k : Fin 3}
    (h : ∀ j, if j < k then digitDecoded t w j else digitCleared w j) (j : Fin 3) :
    if j ≤ k then digitDecoded t (decodedGroup t k w) j else digitCleared (decodedGroup t k w) j := by
  have hj := h j
  rcases lt_trichotomy j k with hlt | rfl | hgt
  · obtain ⟨ev, ed⟩ := decodedGroup_other (t := t) (w := w) hlt.ne
    rw [if_pos hlt] at hj
    rw [if_pos hlt.le]
    exact ⟨ev.trans hj.1, ed.trans hj.2⟩
  · rw [if_pos le_rfl]
    exact decodedGroup_same t j w
  · obtain ⟨ev, ed⟩ := decodedGroup_other (t := t) (w := w) hgt.ne'
    rw [if_neg hgt.not_gt] at hj
    rw [if_neg hgt.not_ge]
    exact ⟨ev.trans hj.1, ed.trans hj.2⟩

theorem workInv_decodedGroup {p : Params} {w : Working} (ht : tableLegal p.table = true) (k : Fin 3)
    (h : workInv p w) : workInv p (decodedGroup p.table k w) :=
  workInv_decode h fun j => by
    change digitInv (tripleGet (decodedGroup p.table k w).digValid j) (tripleGet (decodedGroup p.table k w).dig j)
    by_cases hj : j = k
    · obtain ⟨ev, ed⟩ := decodedGroup_same p.table k w
      rw [hj, ev, ed]
      exact digitInv_decodeDigit ht _
    · obtain ⟨ev, ed⟩ := decodedGroup_other (t := p.table) (w := w) hj
      rw [ev, ed]
      exact workInv_digitInv h j

theorem applyGroup_inv {s : State} (hp : s.phase = .decode) (h : s.Inv) :
    (applyGroup (groupOf s.work.sr s.group) s).Inv := by
  have hr := h.running (by rw [hp]; rfl)
  have hw := workInv_decodedGroup (paramsLegal_table hr.legal) s.group h.work
  obtain ⟨-, -, -, hdec, -⟩ := h.phase
  obtain ⟨hfound, hf, hval, hdig⟩ := hdec hp
  have hprog := decodedGroup_progress hdig
  have e : applyGroup (groupOf s.work.sr s.group) s = { s with
      work := decodedGroup s.params.table s.group s.work
      phase := if s.group = 2 then .assemble else .decode
      group := if s.group = 2 then 0 else s.group + 1 } := applyGroup_eq _ _
  rw [e]
  by_cases hk : s.group = 2
  · rw [if_pos hk, if_pos hk]
    refine (hr.goOn _ .assemble 0).inv rfl (fun _ => rfl) hw
      ⟨nofun, nofun, nofun, nofun, fun _ => ⟨⟨hfound, hf, fun j => ?_⟩, hval⟩, nofun⟩
    have hj := hprog j
    rwa [if_pos (hk ▸ Fin.le_last j)] at hj
  · rw [if_neg hk, if_neg hk]
    refine (hr.goOn _ .decode (s.group + 1)).inv rfl (fun h => absurd rfl h) hw
      ⟨nofun, nofun, nofun, fun _ => ⟨hfound, hf, hval, fun j => ?_⟩, nofun, nofun⟩
    have hlt : ∀ k j : Fin 3, k ≠ 2 → (j < k + 1 ↔ j ≤ k) := by decide
    rw [if_congr (hlt _ j hk) rfl rfl]
    exact hprog j

theorem afterAssemble_inv {s : State} (hp : s.phase = .assemble) (h : s.Inv) :
    (afterAssemble (runAssemble s)).Inv := by
  have hr := h.running (by rw [hp]; rfl)
  have hw := workInv_decodedWork (paramsLegal_table hr.legal) h.work
  have hg : s.group = 0 := h.group (by simp [hp])
  obtain ⟨-, -, -, -, hasm, -⟩ := h.phase
  obtain ⟨⟨hfound, hf, -⟩, -⟩ := hasm hp
  have hdec := decodedWork_digits s.params.table s.work
  rcases runAssemble_complete hf with ⟨hall, e⟩ | ⟨hall, e⟩
  · rw [e]
    have hw' := workInv_assemble (b := true) hw (assembledValue_le hw) nofun
    by_cases h0 : assembledValue (decodedWork s.params.table s.work).dig = 0
    · rw [afterAssemble_zero rfl h0]
      exact (hr.goOn _ s.phase s.group).raise_inv hw'
        ⟨nofun, nofun, nofun, nofun, fun _ => ⟨⟨⟨hfound, hf, hdec⟩, hall, rfl, rfl⟩, h0, rfl⟩, nofun⟩
    · rw [afterAssemble_candidate rfl h0]
      have h1 : 1 ≤ (assembledValue (decodedWork s.params.table s.work).dig).toNat :=
        Nat.pos_of_ne_zero fun h => h0 (BitVec.eq_of_toNat_eq h)
      exact (hr.goOn _ .filter s.group).inv rfl (fun _ => hg) hw'
        ⟨nofun, nofun, nofun, nofun, nofun, fun _ => ⟨⟨⟨hfound, hf, hdec⟩, hall, rfl, rfl⟩, h1⟩⟩
  · rw [afterAssemble_invalid (by rw [e]) ((runAssemble_frameComplete s).trans hf), e]
    exact (hr.goOn _ s.phase s.group).raise_inv (workInv_assemble (b := false) hw (Nat.zero_le _) (fun _ => rfl))
      ⟨nofun, nofun, nofun, fun _ => ⟨⟨hfound, hf, hdec⟩, hall, ⟨rfl, rfl⟩, rfl⟩, nofun, nofun⟩

theorem runFilter_inv {s : State} (hp : s.phase = .filter) (h : s.Inv) : (runFilter s.work.val s).Inv := by
  have hs := h.standing
  have hstab := paramsLegal_stab hs.legal
  obtain ⟨-, -, -, -, -, hfil⟩ := h.phase
  obtain ⟨hasm, h1⟩ := hfil hp
  obtain ⟨-, -, -, -, -, -, -, -, -, -, -, h999, -⟩ := h.work
  obtain ⟨-, -, -, -, -, -, -, hcand, hval, -⟩ := runFilter_fields s.work.val s
  obtain ⟨c, x, e, hcx⟩ := runFilter_eq s.work.val s
  rw [e] at hcand hval ⊢
  have hs' : Standing { s with stability := (filterStep s.params.stab s.stability s.work.val).1 } :=
    ⟨hs.legal, hs.wf, filterStep_stabilityInv hstab ((candidateLegal_iff _).2 ⟨h1, h999⟩) hs.stability,
      filterStep_stableIsCommitted hstab hs.committed⟩
  have ho : outcomeInv (endIteration .accepted c x
      { s with stability := (filterStep s.params.stab s.stability s.work.val).1 }) :=
    ⟨nofun, nofun, nofun, nofun, nofun, fun _ => ⟨hasm, h1, hcand, hval⟩⟩
  rcases hcx with ⟨-, rfl, rfl⟩ | ⟨y, hy, rfl, rfl⟩
  · exact hs'.endIteration_inv h.work nofun (fun _ => rfl) ho
  · exact hs'.endIteration_inv h.work (fun _ => ⟨rfl, filterStep_commit hy⟩) nofun ho

/-! ITERATE and the step. -/

theorem iterate_inv {s : State} (h : s.Inv) : (iterate s).Inv :=
  iterate_keeps (P := State.Inv) (acceptStart_inv h) (fun _ => afterSync_inv) (fun _ => afterExtract_inv)
    (fun _ => runDecode_inv) (fun _ => afterAssemble_inv) (fun _ => runFilter_inv)

theorem Transition.inv {u t : State} (h : u.Inv) (ht : Transition u t) : t.Inv := by
  cases ht with
  | reset => exact resetRegisters_inv h
  | wait => exact h
  | accept => exact acceptStart_inv h
  | iterate => exact iterate_inv h
  | sync hp => exact afterSync_inv hp h
  | extract hp => exact afterExtract_inv hp h
  | decode hp => exact runDecode_inv hp h
  | group hp => exact applyGroup_inv hp h
  | assemble hp => exact afterAssemble_inv hp h
  | filter hp => exact runFilter_inv hp h

/-- The invariant says nothing of the input pins. -/
theorem takeInputs_inv {s : State} (h : s.Inv) : (takeInputs s).Inv := h

/-- Settles O54: a step takes the pins and makes one transition, and every transition keeps the invariant. -/
theorem everyStepKeepsTheInvariant : Obligations.EveryStepKeepsTheInvariant :=
  fun _ _ hinv hstep => (step_transition hstep).inv (takeInputs_inv hinv)

end Sys2Proof.Machine
end

section
/-! PROOFS. What passes from one iteration to the next (R34, R35, R36): the accepted start clears the rest, only FILTER
writes the stability state, and with it the window and the parameters decide an iteration's results. -/

namespace Sys2Proof.Machine

/-! The accepted start (R34). -/

/-- The accepted start with the pins taken, as an update: what R34 clears, and the window. -/
theorem acceptStart_takeInputs_eq {s : State} (hr : s.rst = false) :
    acceptStart (takeInputs s) = { s with
      work := Working.cleared, commit := false, commitValue := 0, busy := true, done := false, phase := .sync
      group := 0, start := false, cw := (freshWindow (takeInputs s)).cw, cwStale := false
      cwEpoch := (freshWindow (takeInputs s)).cwEpoch } := by
  rw [acceptStart, freshWindow_eq]
  cases s
  subst hr
  rfl

/-- Settles O48: the step is the accepted start, which reads every entry as before. -/
theorem acceptedStartClearsTheIteration : Obligations.AcceptedStartClearsTheIteration := by
  intro s hl hr hs hb hp hc
  have hf := (fetch_of_waiting hr hp).trans (fetchWaiting_accept hs hb hc)
  have hread : ∀ i, sampleAt (acceptStart (takeInputs s)) i = sampleAt s i := fun i =>
    (sampleAt_acceptStart _ i).trans (sampleAt_congr rfl rfl rfl i)
  exact ⟨_, _, _, (step_of_accept hf).trans (whenLegal_of_legal hl _), acceptStart_takeInputs_eq hr, hread,
    fun hstale i => (hread i).trans (sampleAt_of_stale hstale i)⟩

/-! The stability state under each operation (R36, R165, R204). -/

theorem afterSync_stability (s : State) : (afterSync (runSync s)).stability = s.stability := by
  rcases afterSync_cases (runSync s) with e | e <;> rw [e, runSync_frame] <;> rfl

theorem afterExtract_stability (j : Nat) (s : State) :
    (afterExtract (runExtract j s)).stability = s.stability := by
  rcases afterExtract_cases (runExtract j s) with e | e <;> rw [e, runExtract_frame] <;> rfl

theorem afterAssemble_stability (s : State) : (afterAssemble (runAssemble s)).stability = s.stability := by
  rcases afterAssemble_cases (runAssemble s) with e | ⟨x, e⟩ <;> rw [e, runAssemble_frame] <;> rfl

theorem applyRow_stability {r : Nat} {s t : State} (h : applyRow r s = .next t) : t.stability = s.stability := by
  obtain ⟨row, -, rfl⟩ := applyRow_eq_next h
  rw [applyGroup_eq]

theorem runFilter_status (v : Value) (s : State) : (runFilter v s).status = .accepted := by
  obtain ⟨c, x, e, -⟩ := runFilter_eq v s
  rw [e, endIteration_status]

/-- R204, R165: an iteration that is not ACCEPTED leaves the stability state as it was. -/
theorem iterate_stability {s : State} (h : paramsLegal s.params = true) :
    (iterate s).stability = s.stability ∨ (iterate s).status = .accepted := by
  have early : ∀ x w, (raise x (withWork w (acceptStart s))).stability = s.stability := fun x w => by simp
  rcases iterate_spec h with ⟨r, -, -, -, e⟩ |
    ⟨a, j, w, -, -, ⟨-, e⟩ | ⟨-, -, e⟩ | ⟨-, -, -, e⟩ | ⟨-, -, -, e⟩⟩ <;> rw [e]
  · exact .inl (early _ _)
  · exact .inl (early _ _)
  · exact .inl (early _ _)
  · exact .inl (early _ _)
  · exact .inr (runFilter_status _ _)

/-- While CORE is not busy, ITERATE is one whole iteration. -/
theorem execIterate_of_notBusy {s : State} (hl : paramsLegal s.params = true) (hb : s.busy = false) :
    exec .iterate s = .next (iterate s) := by
  simp [exec, execIterate, whenLegal_of_legal hl, hb]

theorem execIterate_stability {s t : State} (h : execIterate s = .next t) :
    t.stability = s.stability ∨ t.status = .accepted := by
  obtain ⟨hl, h⟩ := whenLegal_eq_next h
  obtain rfl := Host.Outcome.next.inj h
  split
  · exact .inl rfl
  · exact iterate_stability hl

/-- Settles O29: RESET, FILTER and ITERATE apart, each instruction leaves the stability state; FILTER ends
ACCEPTED, and ITERATE does where it does not leave the stability state. -/
theorem onlyAcceptedFramesReachTheFilter : Obligations.OnlyAcceptedFramesReachTheFilter := by
  intro i s t h hne
  cases i with
  | reset => exact .inl rfl
  | filter =>
    obtain ⟨-, rfl⟩ := execFilter_eq_next h
    exact .inr ⟨.inl rfl, runFilter_status _ _⟩
  | iterate => exact .inr ⟨.inr rfl, (execIterate_stability h).resolve_left hne⟩
  | sync => exact absurd (eq_of_whenLegal_next h ▸ afterSync_stability s) hne
  | extract =>
    obtain ⟨-, rfl⟩ := execExtract_eq_next h
    exact absurd (afterExtract_stability _ s) hne
  | decode => exact absurd (eq_of_whenLegal_next h ▸ rfl) hne
  | assemble => exact absurd (eq_of_whenLegal_next h ▸ afterAssemble_stability s) hne
  | unrecognized g =>
    obtain rfl := eq_of_whenLegal_next h
    rw [applyGroup_eq] at hne
    exact absurd rfl hne
  | row0 | row1 | row2 | row3 | row4 | row5 | row6 | row7 | row8 | row9 | row10 | row11 | row12 =>
    exact absurd (applyRow_stability h) hne

/-! Two iterations on the same window (R35, R180). -/

/-- The two states agree in everything that an iteration reads: its registers, the stability state, the parameters,
and the entries below N. -/
structure SameReads (s1 s2 : State) : Prop where
  params    : s1.params = s2.params
  work      : s1.work = s2.work
  stability : s1.stability = s2.stability
  entries   : ∀ i, i < s1.params.n → sampleAt s1 i = sampleAt s2 i

/-- The two states agree in everything that an iteration leaves as its results. -/
structure SameResults (s1 s2 : State) : Prop where
  work        : s1.work = s2.work
  stability   : s1.stability = s2.stability
  status      : s1.status = s2.status
  commit      : s1.commit = s2.commit
  commitValue : s1.commitValue = s2.commitValue

theorem SameReads.clk {s1 s2 : State} (h : SameReads s1 s2) : ∀ i, i < s1.params.n → clk s1 i = clk s2 i :=
  fun i hi => by simp only [Machine.clk, h.entries i hi]

theorem SameReads.dat {s1 s2 : State} (h : SameReads s1 s2) : ∀ i, i < s1.params.n → dat s1 i = dat s2 i :=
  fun i hi => by simp only [Machine.dat, h.entries i hi]

theorem SameReads.withWork {s1 s2 : State} {w1 w2 : Working} (h : SameReads s1 s2) (hw : w1 = w2) :
    SameReads (withWork w1 s1) (withWork w2 s2) :=
  ⟨h.params, hw, h.stability, h.entries⟩

theorem SameReads.withPhase {s1 s2 : State} (h : SameReads s1 s2) (p : Phase) :
    SameReads { s1 with phase := p } { s2 with phase := p } :=
  ⟨h.params, h.work, h.stability, h.entries⟩

/-- After the accepted start only the parameters, the stability state and the window are left of the state before. -/
theorem acceptStart_sameReads {s1 s2 : State} (hp : s1.params = s2.params) (hs : s1.stability = s2.stability)
    (hw : ∀ i, i < s1.params.n → sampleAt s1 i = sampleAt s2 i) :
    SameReads (acceptStart s1) (acceptStart s2) :=
  ⟨by simpa using hp, rfl, by simpa using hs, by simpa using hw⟩

theorem SameReads.runSync {s1 s2 : State} (h : SameReads s1 s2) : SameReads (runSync s1) (runSync s2) := by
  rw [runSync_frame s1, runSync_frame s2]
  refine h.withWork ?_
  unfold Machine.runSync
  simp only [← h.params, ← h.work, syncWindow_congr h.clk]
  cases (syncWindow (Machine.clk s2) s1.params.n s1.params.gap).result <;> rfl

theorem SameReads.runExtract {s1 s2 : State} (h : SameReads s1 s2) {j : Nat} (hj : j < s1.params.n) :
    SameReads (runExtract j s1) (runExtract j s2) := by
  rw [runExtract_frame j s1, runExtract_frame j s2]
  refine h.withWork ?_
  unfold Machine.runExtract
  simp only [← h.params, ← h.work, extractWindow_congr s1.work.idx h.clk (fun i _ hi _ => h.dat i hi) hj]
  cases (extractWindow (Machine.clk s2) (Machine.dat s2) s1.params.n s1.params.gap j s1.work.idx).2 <;> rfl

theorem SameReads.runDecode {s1 s2 : State} (h : SameReads s1 s2) : SameReads (runDecode s1) (runDecode s2) := by
  rw [runDecode_work, runDecode_work]
  exact h.withWork (by rw [h.params, h.work])

theorem SameReads.runAssemble {s1 s2 : State} (h : SameReads s1 s2) :
    SameReads (runAssemble s1) (runAssemble s2) := by
  rw [runAssemble_frame s1, runAssemble_frame s2]
  refine h.withWork ?_
  unfold Machine.runAssemble sumDigits
  rw [h.runDecode.work, ← h.work]
  split
  · split <;> rfl
  · rfl

theorem SameReads.raise {s1 s2 : State} (h : SameReads s1 s2) (x : EarlyOutcome) :
    SameResults (raise x s1) (raise x s2) :=
  ⟨h.work, h.stability, rfl, rfl, rfl⟩

theorem SameReads.runFilter {s1 s2 : State} (h : SameReads s1 s2) (v : Value) :
    SameResults (runFilter v s1) (runFilter v s2) := by
  unfold Machine.runFilter
  simp only [← h.params, ← h.stability]
  cases (filterStep s1.params.stab s1.stability v).2 <;> exact ⟨h.work, rfl, rfl, rfl, rfl⟩

/-- The stages after EXTRACT take the same way through the early exits of R182. -/
theorem SameReads.afterFrame {s1 s2 : State} (h : SameReads s1 s2) :
    SameResults (afterFrame s1) (afterFrame s2) := by
  have ha := ((h.withPhase .decode).runDecode.withPhase .assemble).runAssemble
  unfold Machine.afterFrame
  simp only
  generalize Machine.runAssemble { Machine.runDecode { s1 with phase := .decode } with
    phase := .assemble } = a1 at ha ⊢
  generalize Machine.runAssemble { Machine.runDecode { s2 with phase := .decode } with
    phase := .assemble } = a2 at ha ⊢
  rw [runFilter_phase _ _ a1, runFilter_phase _ _ a2, ← h.work, ← ha.work]
  split
  · exact h.raise .incomplete
  · split
    · exact ha.raise .unrecognized
    · split
      · exact ha.raise .zeroDiscard
      · exact ha.runFilter _

/-- R114: where SYNC finds a sync point, it is a window index. -/
theorem runSync_syncIdx_lt {s : State} (hl : paramsLegal s.params = true)
    (hf : (runSync s).work.syncFound = true) : (runSync s).work.syncIdx < s.params.n := by
  rcases runSync_cases hl with ⟨a, b, ⟨⟨-, hb, -⟩, -⟩, e⟩ | ⟨r, -, -, -, e⟩ <;> rw [e] at hf ⊢
  · exact hb
  · cases hf

/-- The whole iteration takes the same way, and so it leaves the same results. -/
theorem iterate_sameResults {s1 s2 : State} (hl : paramsLegal s1.params = true)
    (h : SameReads (acceptStart s1) (acceptStart s2)) : SameResults (iterate s1) (iterate s2) := by
  have hs := h.runSync
  rw [iterate_eq_afterFrame, iterate_eq_afterFrame, ← hs.work]
  split
  · next hfound =>
    refine ((hs.withPhase .extract).runExtract ?_).afterFrame
    have hj := runSync_syncIdx_lt (s := acceptStart s1) (by simpa using hl) hfound
    rw [runSync_frame]
    exact hj
  · exact hs.raise .syncFail

/-- Settles O34: after the accepted start both iterations read the same, and so they leave the same results. -/
theorem iterationsShareOnlyTheStabilityState : Obligations.IterationsShareOnlyTheStabilityState := by
  intro s1 s2 hl hp hs hb1 hb2 hw
  obtain ⟨hwork, hstab, hstatus, hcommit, hvalue⟩ := iterate_sameResults hl (acceptStart_sameReads hp hs hw)
  exact ⟨_, _, execIterate_of_notBusy hl hb1, execIterate_of_notBusy (hp ▸ hl) hb2,
    hwork, hstab, hstatus, hcommit, hvalue⟩

end Sys2Proof.Machine
end

section
/-! PROOFS. The memories (R52 to R56): reading them, the Sampler's write, and what instructions and steps leave as it
is in the capture window. -/

namespace Sys2Proof.Machine

/-! Reading (R52, R56). -/

theorem memReadCW_of_lt {s : State} {i : Nat} (h : i < s.params.n) : memReadCW s i = .ok (sampleAt s i) := if_pos h

theorem memReadCW_of_le {s : State} {i : Nat} (h : s.params.n ≤ i) : memReadCW s i = .error .cwIndexOutOfRange :=
  if_neg (Nat.not_lt.2 h)

/-- An admissible table has the rows 0 to 12 and no other. -/
theorem romRow_isSome_iff {t : Table} (h : tableLegal t = true) (r : Nat) :
    (romRow t r).isSome = true ↔ r ≤ 12 := by
  rw [Option.isSome_iff_exists]
  constructor
  · rintro ⟨row, hr⟩
    exact Nat.le_of_lt_succ (Nat.lt_of_lt_of_eq (romRow_lt hr) (tableLegal_length h))
  · exact fun hr => romRow_isSome h (Nat.lt_succ_of_le hr)

/-- Settles O44: a read below N and above it are the two branches of the read; the ROM has thirteen rows. -/
theorem memReadAnswersInRangeAndRefusesAbove : Obligations.MemReadAnswersInRangeAndRefusesAbove :=
  ⟨fun _ _ => memReadCW_of_lt, fun _ _ => memReadCW_of_le, fun _ r h => romRow_isSome_iff h r⟩

/-! The Sampler's write (R53). -/

theorem samplerWrite_of_busy {s : State} (hb : s.busy = true) (i : Nat) (v : Sample) :
    samplerWrite i v s = .refused .cwWriteWhileBusy :=
  if_pos hb

theorem samplerWrite_of_le {s : State} {i : Nat} (hb : s.busy = false) (hi : s.params.n ≤ i) (v : Sample) :
    samplerWrite i v s = .refused .cwIndexOutOfRange := by
  simp [samplerWrite, hb, Nat.not_lt.2 hi]

theorem samplerWrite_of_lt {s : State} {i : Nat} (hb : s.busy = false) (hi : i < s.params.n) (v : Sample) :
    samplerWrite i v s = .next (writeEntry i v s) := by
  simp [samplerWrite, hb, hi]

/-- Settles O40: the two refusals of the Sampler's write. -/
theorem samplerMayNotWriteABusyCore : Obligations.SamplerMayNotWriteABusyCore :=
  fun _ i v => ⟨fun hb => samplerWrite_of_busy hb i v, fun hb hi => samplerWrite_of_le hb hi v⟩

/-- The write changes the window's three fields and no register. -/
theorem writeEntry_eq (i : Nat) (v : Sample) (s : State) :
    writeEntry i v s = { s with cw := (writeEntry i v s).cw, cwStale := false
                                cwEpoch := (writeEntry i v s).cwEpoch } := by
  rw [writeEntry, freshWindow_eq]

/-- Settles O39: the write is the entry's, which is read back, and every other entry reads as before. -/
theorem samplerWriteIsReadBack : Obligations.SamplerWriteIsReadBack := by
  intro s i v hb hi
  refine ⟨(writeEntry i v s).cw, (writeEntry i v s).cwEpoch, ?_⟩
  rw [← writeEntry_eq]
  exact ⟨samplerWrite_of_lt hb hi v, writeEntry_wf i v, sampleAt_writeEntry_same i v s, fun k hk =>
    have hread := sampleAt_writeEntry_other v s hk
    ⟨hread, fun hstale => hread.trans (sampleAt_of_stale hstale k)⟩⟩

/-! What the instructions leave as it is (R10, R53, R55). -/

theorem KeepsWindow.refl (s : State) : KeepsWindow s s := ⟨rfl, rfl, rfl, .inl rfl⟩

/-- A window that is still in use reads as before. -/
theorem KeepsWindow.sampleAt_of_inUse {s t : State} (k : KeepsWindow s t) (h : t.cwStale = false) (a : Nat) :
    Machine.sampleAt t a = Machine.sampleAt s a := by
  rcases k.stale with hs | ⟨hs, -, -⟩
  · exact k.sampleAt hs a
  · cases h.symm.trans hs

/-- While the iteration goes on the window reads as before. -/
theorem KeepsWindow.sampleAt_of_busy {s t : State} (k : KeepsWindow s t) (h : t.busy = true) (a : Nat) :
    Machine.sampleAt t a = Machine.sampleAt s a := by
  rcases k.stale with hs | ⟨-, -, hb⟩
  · exact k.sampleAt hs a
  · cases h.symm.trans hb

/-- What an answered instruction does to the window: RESET and an ITERATE that is accepted apart, it keeps it. -/
theorem exec_window_cases {i : Instr} {s t : State} (h : exec i s = .next t) :
    (i = .reset ∧ t = resetRegisters s)
    ∨ (i = .iterate ∧ s.busy = false ∧ paramsLegal s.params = true ∧ t = iterate s)
    ∨ ((i = .iterate → s.busy = true) ∧ KeepsWindow s t) := by
  by_cases hr : i = .reset
  · subst hr
    exact .inl ⟨rfl, eq_of_whenLegal_next h⟩
  · by_cases hi : i = .iterate
    · subst hi
      obtain ⟨hl, he⟩ := whenLegal_eq_next h
      obtain rfl := Host.Outcome.next.inj he
      cases hb : s.busy with
      | false => exact .inr (.inl ⟨rfl, rfl, hl, rfl⟩)
      | true => exact .inr (.inr ⟨fun _ => rfl, .refl s⟩)
    · exact .inr (.inr ⟨fun e => absurd e hi, exec_keepsWindow hi hr h⟩)

/-- Settles O41: RESET keeps the cells and uses up the window only of an iteration it aborts, ITERATE uses up the
window it reads, and every other instruction keeps the window. -/
theorem noInstructionWritesMemoryOrParameters : Obligations.NoInstructionWritesMemoryOrParameters := by
  intro i s t h
  rcases exec_window_cases h with ⟨rfl, rfl⟩ | ⟨rfl, hb, hl, rfl⟩ | ⟨hbusy, k⟩
  · refine ⟨rfl, fun _ => rfl, nofun, fun hs a => ?_, fun _ hs => ?_, fun hs => ?_⟩
    · obtain ⟨-, hb⟩ := Bool.or_eq_false_iff.1 hs
      exact sampleAt_resetRegisters hb a
    · exact sampleAt_congr (s := s) (t := resetRegisters s) rfl rfl hs
    · rcases Bool.or_eq_true_iff.1 hs with hs | hb
      · exact .inl hs
      · exact .inr (.inr ⟨rfl, hb⟩)
  · obtain ⟨hp, hcw, -, hstale, hdone⟩ := iterate_window hl
    refine ⟨hp, fun hc => ?_, fun _ _ => hcw, fun hs => ?_, fun hne => absurd rfl hne, fun _ => .inr (.inl hdone)⟩
    · rcases hc with hne | hs | hb'
      · exact absurd rfl hne
      · rw [hcw, freshWindow_of_fresh hs]
      · cases hb.symm.trans hb'
    · cases hs.symm.trans hstale
  · refine ⟨k.params, fun _ => k.cw, fun hi hb => ?_, k.sampleAt_of_inUse, fun _ => k.sampleAt, fun hs => ?_⟩
    · cases hb.symm.trans (hbusy hi)
    · rcases k.stale with e | ⟨-, hdone, -⟩
      · exact .inl (e.symm.trans hs)
      · exact .inr (.inl hdone)

/-! What the steps of a busy CORE leave as it is (R54). -/

/-- From a busy state, every transition but RESET keeps the window. -/
theorem Transition.keepsWindow {u t : State} (ht : Transition u t) (hb : u.busy = true) :
    t = resetRegisters u ∨ KeepsWindow u t := by
  cases ht with
  | reset => exact .inl rfl
  | wait => exact .inr (.refl u)
  | accept _ hb' | iterate _ hb' => cases hb.symm.trans hb'
  | sync => exact .inr (afterSync_keepsWindow u)
  | extract => exact .inr (afterExtract_keepsWindow _ u)
  | decode => exact .inr ⟨rfl, rfl, rfl, .inl rfl⟩
  | group => exact .inr (applyGroup_keepsWindow _ u)
  | assemble => exact .inr (afterAssemble_keepsWindow u)
  | filter => exact .inr (runFilter_keepsWindow _ u)

/-- Settles O43: RESET keeps the cells and ends busy; every other step of a busy CORE keeps the window. -/
theorem windowIsConstantWhileBusy : Obligations.WindowIsConstantWhileBusy := by
  intro s t hb h
  rcases (step_transition h).keepsWindow hb with rfl | k
  · exact ⟨rfl, nofun⟩
  · exact ⟨k.cw, fun ht i => (k.sampleAt_of_busy ht i).trans (sampleAt_congr rfl rfl rfl i)⟩

end Sys2Proof.Machine
end

section
/-! PROOFS. The presentation of a word (log entries 9, 10): in the state presentWord makes, the sequencer fetches that
word. -/

namespace Sys2Proof.Machine

theorem fetch_inPhase {p : Phase} (hb : p.isBusy = true) (s : State) : fetch (inPhase p s) = .word (.op p.code) :=
  fetch_of_busy (s := inPhase p s) rfl hb fun _ => nofun

/-- A candidate in val does not change what is fetched. -/
theorem fetch_withCandidate (s : State) : fetch (withCandidate s) = fetch s := by
  unfold withCandidate
  split <;> rfl

theorem fetch_withStart (s : State) : fetch (withStart s) = .word (.op 6) := by
  have hp : (withStart s).phase = .idle ∨ (withStart s).phase = .done := by
    by_cases h : s.phase = .done <;> simp [withStart, h]
  exact (fetch_of_waiting rfl hp).trans (fetchWaiting_iterate rfl rfl rfl)

/-- Group 0 of the stream withGroup writes (R86): bits 20 to 14. -/
theorem groupOf_withGroup (g : Group) (s : State) : groupOf (withGroup g s).work.sr 0 = g := by
  have hlow : (0x3FFF#21).extractLsb' 14 7 = 0#7 := by decide
  have hhigh : (g.setWidth 21 <<< 14).extractLsb' 14 7 = g := by
    ext k hk
    simp [hk, show 14 + k < 21 by omega]
  change ((s.work.sr &&& 0x3FFF#21) ||| (g.setWidth 21 <<< 14)).extractLsb' 14 7 = g
  rw [BitVec.extractLsb'_or, BitVec.extractLsb'_and, hlow, hhigh]
  simp

theorem fetch_withGroup (g : Group) (s : State) : fetch (withGroup g s) = .word (.group g) := by
  have hf := fetch_of_group (s := withGroup g s) rfl rfl rfl
  rwa [show (withGroup g s).group = 0 from rfl, groupOf_withGroup] at hf

/-- Every phase code but 7 is an operation's (R99). -/
theorem decodeOp_code {code : BitVec 3} {i : Instr} (h : decodeOp code = .ok i) :
    code = 0 ∨ code = 6 ∨ ∃ p : Phase, p.isBusy = true ∧ code = p.code := by
  unfold decodeOp at h
  split at h
  · next hc => exact .inl (BitVec.eq_of_toNat_eq hc)
  · next hc => exact .inr (.inr ⟨.sync, rfl, BitVec.eq_of_toNat_eq hc⟩)
  · next hc => exact .inr (.inr ⟨.extract, rfl, BitVec.eq_of_toNat_eq hc⟩)
  · next hc => exact .inr (.inr ⟨.decode, rfl, BitVec.eq_of_toNat_eq hc⟩)
  · next hc => exact .inr (.inr ⟨.assemble, rfl, BitVec.eq_of_toNat_eq hc⟩)
  · next hc => exact .inr (.inr ⟨.filter, rfl, BitVec.eq_of_toNat_eq hc⟩)
  · next hc => exact .inr (.inl (BitVec.eq_of_toNat_eq hc))
  · cases h

theorem fetch_presentWord_code {p : Phase} (hb : p.isBusy = true) (s : State) :
    fetch (presentWord (.op p.code) s) = .word (.op p.code) := by
  cases p with
  | idle | done => cases hb
  | sync | extract | decode | assemble => exact fetch_inPhase hb s
  | filter => exact (fetch_withCandidate _).trans (fetch_inPhase hb s)

/-- The presented word is fetched, if it is the word of an instruction. -/
theorem fetch_presentWord {t : Table} {w : Word} {i : Instr} (h : decode t w = .ok i) (s : State) :
    fetch (presentWord w s) = .word w := by
  cases w with
  | group g => exact fetch_withGroup g s
  | op code =>
    rcases decodeOp_code h with rfl | rfl | ⟨p, hb, rfl⟩
    · exact fetch_of_rst rfl
    · exact fetch_withStart s
    · exact fetch_presentWord_code hb s

@[simp] theorem inPhase_params (p : Phase) (s : State) : (inPhase p s).params = s.params :=
  busyIn_params p .operation s

@[simp] theorem withCandidate_params (s : State) : (withCandidate s).params = s.params := by
  unfold withCandidate
  split <;> rfl

@[simp] theorem withStart_params (s : State) : (withStart s).params = s.params := rfl

/-- Presenting a word leaves the parameters. -/
theorem presentWord_params (w : Word) (s : State) : (presentWord w s).params = s.params := by
  cases w with
  | group g => exact busyIn_params .decode .group s
  | op code =>
    unfold presentWord
    simp only
    split <;> simp

/-- The instruction of a word of the opcode table is that of the word it stands for. -/
theorem decodeTableWord_eq_some {nbits w : Nat} {i : Instr} (h : decodeTableWord nbits w = some i) :
    ∃ word, tableWord nbits w = some word ∧ decode defaultTable word = .ok i := by
  unfold decodeTableWord at h
  split at h
  · next word hw =>
    split at h
    · next i' hd => exact ⟨word, hw, Option.some.inj h ▸ hd⟩
    · cases h
  · cases h

/-- Settles O49: the presented word is fetched and decodes, under the same table, to the instruction. -/
theorem presentedWordRunsNext : Obligations.PresentedWordRunsNext := by
  intro s nbits w i ht h
  obtain ⟨word, hw, hd⟩ := decodeTableWord_eq_some h
  have hpresent : s.withFetchWord nbits w = presentWord word s := by simp [State.withFetchWord, hw]
  rw [hpresent]
  exact step_of_word (fetch_presentWord hd s) (by rw [presentWord_params, ht, hd])

end Sys2Proof.Machine
end

section
/-! PROOFS. The encoding: the ROM word of a row (R91), the blank flag (R93), the decode map of DEFAULT_TABLE (R95), and
words and instructions as each other's inverse (R97, R99, R101). -/

namespace Sys2Proof.Machine

/-! Words and instructions (R97, R101). -/

/-- The first row with a group's pattern is the instruction's row; where there is none, the group is the operand. -/
theorem decodeGroup_eq_ok_iff {t : Table} {g : Group} {i : Instr} :
    decodeGroup t g = .ok i ↔
      (∃ r row, IsFirstRow t g r row ∧ rowInstr r = .ok i) ∨ (NoRowHas t g ∧ i = .unrecognized g) := by
  unfold decodeGroup
  cases hm : firstMatch t g with
  | some r =>
    obtain ⟨row, hrow⟩ := (firstMatch_eq_some_iff t g r).1 hm
    refine ⟨fun hi => .inl ⟨r, row, hrow, hi⟩, ?_⟩
    rintro (⟨r', row', hrow', hi⟩ | ⟨hno, -⟩)
    · obtain rfl : r = r' := Option.some.inj (hm.symm.trans ((firstMatch_eq_some_iff t g r').2 ⟨row', hrow'⟩))
      exact hi
    · cases hm.symm.trans ((firstMatch_eq_none_iff t g).2 hno)
  | none =>
    have hno := (firstMatch_eq_none_iff t g).1 hm
    constructor
    · rintro ⟨⟩
      exact .inr ⟨hno, rfl⟩
    · rintro (⟨r, row, ⟨hrow, hpat, -⟩, -⟩ | ⟨-, rfl⟩)
      · exact absurd hpat (hno r row hrow)
      · rfl

/-- A row is not shadowed exactly when it is the first row of some group (R97). -/
theorem rowNotShadowed_iff (t : Table) (r : Nat) :
    rowNotShadowed t r = true ↔ ∃ g row, IsFirstRow t g r row := by
  unfold rowNotShadowed
  constructor
  · intro h
    split at h
    · next row hrow => exact ⟨row.pattern, (firstMatch_eq_some_iff _ _ _).1 (eq_of_beq h)⟩
    · cases h
  · rintro ⟨g, row, hfirst⟩
    have ⟨hrow, hpat, _⟩ := hfirst
    simp [hrow, hpat, (firstMatch_eq_some_iff t g r).2 ⟨row, hfirst⟩]

theorem encodeRow_of_firstRow {t : Table} {g : Group} {r : Nat} {row : Row} (h : IsFirstRow t g r row) :
    encodeRow t r = some (.group g) := by
  obtain ⟨hrow, hpat, -⟩ := h
  simp [encodeRow, hrow, hpat]

theorem encode_of_rowInstr {r : Nat} {i : Instr} (h : rowInstr r = .ok i) (t : Table) :
    encode t i = encodeRow t r := by
  unfold rowInstr at h
  split at h <;> cases h <;> rfl

theorem wellFormed_of_rowInstr {r : Nat} {i : Instr} (h : rowInstr r = .ok i) (t : Table) :
    i.wellFormed t = rowNotShadowed t r := by
  unfold rowInstr at h
  split at h <;> cases h <;> rfl

/-- A group that no row has is the operand of a well-formed term. -/
theorem wellFormed_unrecognized_iff (t : Table) (g : Group) :
    (Instr.unrecognized g).wellFormed t = true ↔ NoRowHas t g :=
  beq_iff_eq.trans (firstMatch_eq_none_iff t g)

/-- The pattern of a row that is not shadowed decodes to that row. -/
theorem decode_encodeRow {t : Table} {r : Nat} {i : Instr} (hi : rowInstr r = .ok i)
    (h : rowNotShadowed t r = true) : ∃ w, encodeRow t r = some w ∧ decode t w = .ok i := by
  obtain ⟨g, row, hfirst⟩ := (rowNotShadowed_iff t r).1 h
  exact ⟨.group g, encodeRow_of_firstRow hfirst, decodeGroup_eq_ok_iff.2 (.inl ⟨r, row, hfirst, hi⟩)⟩

/-- Settles O17: an operation's phase code decodes to it, a row's pattern to the row, and an unrecognized group to
itself. -/
theorem decodeOfEncodeIsTheInstruction : Obligations.DecodeOfEncodeIsTheInstruction := by
  intro t i h
  cases i with
  | reset | sync | extract | decode | assemble | filter | iterate => exact ⟨_, rfl, rfl⟩
  | row0 | row1 | row2 | row3 | row4 | row5 | row6 | row7 | row8 | row9 | row10 | row11 | row12 =>
    exact decode_encodeRow rfl h
  | unrecognized g =>
    exact ⟨_, rfl, decodeGroup_eq_ok_iff.2 (.inr ⟨(wellFormed_unrecognized_iff t g).1 h, rfl⟩)⟩

/-- The phase code of an operation is its word, and an operation is always well-formed. -/
theorem decodeOp_encode {code : BitVec 3} {i : Instr} (h : decodeOp code = .ok i) (t : Table) :
    i.wellFormed t = true ∧ encode t i = some (.op code) := by
  unfold decodeOp at h
  split at h <;> cases h <;> next hc => exact ⟨rfl, congrArg (some ∘ Word.op) (BitVec.eq_of_toNat_eq hc.symm)⟩

/-- Settles O18: the decoded instruction is an operation, the first row with the group's pattern, or the group that
no row has. -/
theorem decodedInstructionsAreWellFormed : Obligations.DecodedInstructionsAreWellFormed := by
  intro t w i h
  cases w with
  | op code => exact decodeOp_encode h t
  | group g =>
    rcases decodeGroup_eq_ok_iff.1 h with ⟨r, row, hfirst, hi⟩ | ⟨hno, rfl⟩
    · rw [wellFormed_of_rowInstr hi, encode_of_rowInstr hi]
      exact ⟨(rowNotShadowed_iff t r).2 ⟨g, row, hfirst⟩, encodeRow_of_firstRow hfirst⟩
    · exact ⟨(wellFormed_unrecognized_iff t g).2 hno, rfl⟩

/-- A row whose pattern an earlier row has is the first row of no group. -/
theorem not_isFirstRow_of_shadowed {t : Table} {r r' : Nat} {row row' : Row} (hlt : r' < r)
    (hr : romRow t r = some row) (hr' : romRow t r' = some row') (hp : row'.pattern = row.pattern)
    (g : Group) (row2 : Row) : ¬ IsFirstRow t g r row2 := by
  rintro ⟨hrow, hpat, hfirst⟩
  obtain rfl : row = row2 := Option.some.inj (hr.symm.trans hrow)
  exact hfirst r' row' hlt hr' (hp.trans hpat)

/-- A word that decodes to a row's instruction would make that row well-formed, and so the first row of a group. -/
theorem exists_firstRow_of_decode {t : Table} {r : Nat} {i : Instr} {w : Word} (hi : rowInstr r = .ok i)
    (h : decode t w = .ok i) : ∃ g row, IsFirstRow t g r row := by
  obtain ⟨hwf, -⟩ := decodedInstructionsAreWellFormed t w i h
  rw [wellFormed_of_rowInstr hi] at hwf
  exact (rowNotShadowed_iff t r).1 hwf

/-- Settles O16: a shadowed row is the first row of no group, and a word that decodes to a row makes it one. -/
theorem shadowedRowIsNeverDecoded : Obligations.ShadowedRowIsNeverDecoded := by
  refine ⟨fun t r r' row row' hlt hr hr' hp => ?_, rfl, rfl⟩
  have hnot := not_isFirstRow_of_shadowed hlt hr hr' hp
  refine ⟨hnot, fun i hi w hw => ?_⟩
  obtain ⟨g, row2, hfirst⟩ := exists_firstRow_of_decode hi hw
  exact hnot g row2 hfirst

/-- Settles O19: the decoder evaluated on the fourteen words. -/
theorem opcodeTableWordsDecode : Obligations.OpcodeTableWordsDecode := by
  unfold Obligations.OpcodeTableWordsDecode
  decide

/-! The blank flag (R93). -/

/-- The table with every blank flag cleared: the patterns and the values are left. -/
def eraseFlags (t : Table) : Table := t.map fun row => { row with blank := false }

theorem eraseFlags_eq {t1 t2 : Table}
    (h : t1.map (fun row => (row.pattern, row.value)) = t2.map (fun row => (row.pattern, row.value))) :
    eraseFlags t1 = eraseFlags t2 := by
  have hmap : ∀ t : Table, eraseFlags t
      = (t.map fun row => (row.pattern, row.value)).map fun pv => ⟨pv.1, pv.2, false⟩ := fun t => by
    rw [List.map_map]
    rfl
  rw [hmap, hmap, h]

@[simp] theorem firstMatch_eraseFlags (t : Table) (g : Group) : firstMatch (eraseFlags t) g = firstMatch t g := by
  induction t with
  | nil => rfl
  | cons row rest ih => exact congrArg (fun m => if rowMatches row g then some 0 else m.map (· + 1)) ih

@[simp] theorem decodeDigit_eraseFlags (t : Table) (g : Group) :
    decodeDigit (eraseFlags t) g = decodeDigit t g := by
  induction t with
  | nil => rfl
  | cons row rest ih => exact congrArg (fun d => if rowMatches row g then .digit row.value else d) ih

theorem plainRowsLegal_eraseFlags (plain : Table) : plainRowsLegal (eraseFlags plain) = plainRowsLegal plain := by
  simp [plainRowsLegal, eraseFlags, Function.comp_def]

theorem lastRowsLegal_eraseFlags (plain last : Table) :
    lastRowsLegal (eraseFlags plain) (eraseFlags last) = lastRowsLegal plain last := by
  have hany : ∀ g : Group, (eraseFlags plain).any (·.pattern == g) = plain.any (·.pattern == g) := fun g => by
    simp [eraseFlags, Function.comp_def]
  match last with
  | [a, b, z] =>
    simp only [eraseFlags, List.map, lastRowsLegal] at hany ⊢
    simp only [hany]
  | [] | [_] | [_, _] | _ :: _ :: _ :: _ :: _ => rfl

/-- Admissibility (R92) is said in patterns and values alone. -/
@[simp] theorem tableLegal_eraseFlags (t : Table) : tableLegal (eraseFlags t) = tableLegal t := by
  have htake : (eraseFlags t).take 10 = eraseFlags (t.take 10) := List.map_take.symm
  have hdrop : (eraseFlags t).drop 10 = eraseFlags (t.drop 10) := List.map_drop.symm
  unfold tableLegal
  rw [htake, hdrop, plainRowsLegal_eraseFlags, lastRowsLegal_eraseFlags]
  simp [eraseFlags, Function.comp_def]

theorem decodedWork_congr {t1 t2 : Table} (h : ∀ g, decodeDigit t1 g = decodeDigit t2 g) (w : Working) :
    decodedWork t1 w = decodedWork t2 w := by
  simp only [decodedWork, h]

/-- DECODE of the frame as its outcome: the three digits, then P_ASSEMBLE. -/
theorem exec_decode_of_legal {s : State} (hl : paramsLegal s.params = true) :
    exec .decode s
      = .next { s with work := decodedWork s.params.table s.work, phase := .assemble, group := 0 } :=
  whenLegal_of_legal hl _

/-- Settles O12: what DECODE reads of a table is left when the flags are cleared. -/
theorem blankFlagHasNoEffect : Obligations.BlankFlagHasNoEffect := by
  intro t1 t2 h
  have he := eraseFlags_eq h
  have hlegal : tableLegal t1 = tableLegal t2 := by
    rw [← tableLegal_eraseFlags, he, tableLegal_eraseFlags]
  have hfirst : ∀ g, firstMatch t1 g = firstMatch t2 g := fun g => by
    rw [← firstMatch_eraseFlags, he, firstMatch_eraseFlags]
  have hdigit : ∀ g, decodeDigit t1 g = decodeDigit t2 g := fun g => by
    rw [← decodeDigit_eraseFlags, he, decodeDigit_eraseFlags]
  refine ⟨hlegal, fun g => ⟨hfirst g, hdigit g⟩, fun s t ht hs => ?_⟩
  obtain ⟨hl, hs⟩ := whenLegal_eq_next hs
  obtain rfl := Host.Outcome.next.inj hs
  have hl2 : paramsLegal { s.params with table := t2 } = true := by
    rw [paramsLegal_iff] at hl ⊢
    rwa [ht, hlegal] at hl
  rw [exec_decode_of_legal hl2, runDecode_work, ht, decodedWork_congr hdigit]

/-! DEFAULT_TABLE and the unrecognized groups (R95, R96). -/

/-- A group that no row has is one outside the list of the patterns (R96). -/
theorem noRowHas_iff (t : Table) (g : Group) : NoRowHas t g ↔ g ∉ t.map (·.pattern) := by
  unfold NoRowHas romRow
  rw [List.mem_map]
  constructor
  · rintro hno ⟨row, hmem, hpat⟩
    obtain ⟨r, hr⟩ := List.mem_iff_getElem?.1 hmem
    exact hno r row hr hpat
  · exact fun hno r row hr hpat => hno ⟨row, romRow_mem hr, hpat⟩

/-- Settles O11: a pattern of the table is one of the thirteen to evaluate, and any other group no row has. -/
theorem defaultTableDecodeMap : Obligations.DefaultTableDecodeMap := by
  intro g
  by_cases hg : g ∈ defaultTable.map (·.pattern)
  · revert g
    decide
  · have hno := (noRowHas_iff defaultTable g).2 hg
    rw [decodeDigit_of_noRow hno, (firstMatch_eq_none_iff _ _).2 hno]
    simp only [defaultTable, List.map, List.mem_cons, not_or] at hg
    simp only [hg, if_false]

/-- Settles O15: DECODE of a group that no row has is the sentinel, which is written for the group in turn. -/
theorem unrecognizedGroupClearsItsDigit : Obligations.UnrecognizedGroupClearsItsDigit := by
  intro s g hl hno
  have happly : exec (.unrecognized g) s = .next (applyGroup g s) := whenLegal_of_legal hl _
  rw [happly, applyGroup_eq, decodeDigit_of_noRow hno]
  rfl

/-! The ROM word of a row (R91). -/

theorem romWord_toNat (row : Row) :
    (romWord row).toNat = 32 * row.pattern.toNat + 2 * row.value.toNat + row.blank.toNat := by
  have hv : row.value.toNat < 2 ^ 4 := row.value.isLt
  have hb : row.blank.toNat < 2 ^ 1 := row.blank.toNat_lt
  simp only [romWord, BitVec.toNat_append, BitVec.toNat_ofBool]
  rw [← Nat.shiftLeft_add_eq_or_of_lt hb, ← Nat.shiftLeft_add_eq_or_of_lt hv]
  omega

/-- The three fields are read back from the number the word is. -/
theorem rowOfRomWord_romWord (row : Row) : rowOfRomWord (romWord row) = row := by
  have hw := romWord_toNat row
  have hv : row.value.toNat < 2 ^ 4 := row.value.isLt
  have hb : row.blank.toNat < 2 ^ 1 := row.blank.toNat_lt
  have hpattern : (romWord row).extractLsb' 5 7 = row.pattern := by
    rw [← BitVec.toNat_inj, BitVec.extractLsb'_toNat, hw, Nat.shiftRight_eq_div_pow]
    omega
  have hvalue : (romWord row).extractLsb' 1 4 = row.value := by
    rw [← BitVec.toNat_inj, BitVec.extractLsb'_toNat, hw, Nat.shiftRight_eq_div_pow]
    omega
  have hblank : (romWord row).getLsbD 0 = row.blank := by
    have hmod : (romWord row).toNat % 2 = row.blank.toNat := by omega
    rw [BitVec.getLsbD, Nat.testBit_zero, hmod]
    cases row.blank <;> rfl
  rw [rowOfRomWord, hpattern, hvalue, hblank]

/-- Settles O20: the word as a number, and the row read back from it. -/
theorem romWordHoldsTheRow : Obligations.RomWordHoldsTheRow :=
  fun row => ⟨romWord_toNat row, rowOfRomWord_romWord row⟩

end Sys2Proof.Machine
end

section
/-! PROOFS. SYNC's closed form (R113, R114), and what the operations read and write of the state: the entries of the
window (R52, R116) and the working registers (R36). -/

namespace Sys2Proof.Machine

/-! What an operation answers whose guard is met. -/

/-- An instruction that is answered runs on legal parameters. -/
theorem paramsLegal_of_exec {i : Instr} {s t : State} (h : exec i s = .next t) :
    paramsLegal s.params = true := by
  obtain ⟨r, hr⟩ := exec_eq_whenLegal i s
  exact (whenLegal_eq_next (hr.symm.trans h)).1

theorem exec_sync_of_legal {s : State} (hl : paramsLegal s.params = true) :
    exec .sync s = .next (afterSync (runSync s)) :=
  whenLegal_of_legal hl _

theorem exec_extract_of_lt {s : State} (hl : paramsLegal s.params = true) (hs : s.work.syncIdx < s.params.n) :
    exec .extract s = .next (afterExtract (runExtract s.work.syncIdx s)) :=
  (whenLegal_of_legal hl _).trans (if_pos (decide_eq_true hs))

theorem exec_filter_of_candidate {s : State} (hl : paramsLegal s.params = true)
    (hv : candidateLegal s.work.val = true) : exec .filter s = .next (runFilter s.work.val s) :=
  (whenLegal_of_legal hl _).trans (if_pos hv)

/-- R188: while CORE is busy, ITERATE changes nothing. -/
theorem execIterate_of_busy {s : State} (hl : paramsLegal s.params = true) (hb : s.busy = true) :
    exec .iterate s = .next s := by
  simp [exec, execIterate, whenLegal_of_legal hl, hb]

/-! SYNC. -/

/-- Settles O4: the scan finds the first idle run where there is one, and without one it ends with the counter of
the low samples at the end of the window. -/
theorem syncFollowsItsClosedForm : Obligations.SyncFollowsItsClosedForm := by
  intro s hl
  rw [exec_sync_of_legal hl]
  refine ⟨fun a b hab => ?_, fun hno => ?_⟩
  · have hfound := runSync_found hl hab
    obtain ⟨⟨hle, hb, -⟩, hlen, -⟩ := hab
    exact ⟨by omega, by omega, by rw [hfound]; rfl⟩
  · obtain ⟨r, hr, ⟨hrn, hlow, hhigh⟩, hnot⟩ := noGapBelow_of_noIdle hl hno
    refine ⟨r, hr, by omega, hlow, fun h => ?_, by rw [hnot]; rfl⟩
    rw [Nat.sub_right_comm]
    exact hhigh (by omega)

/-! Another window memory. -/

theorem afterSync_withCw (s : State) (m : Memory) : afterSync { s with cw := m } = { afterSync s with cw := m } := by
  unfold afterSync
  simp only
  split <;> rfl

theorem afterExtract_withCw (s : State) (m : Memory) :
    afterExtract { s with cw := m } = { afterExtract s with cw := m } := by
  unfold afterExtract
  simp only
  split <;> rfl

/-- R116 (i): SYNC reads the clock levels below N and nothing else of the window. -/
theorem exec_sync_withCw {s : State} {m : Memory} (hl : paramsLegal s.params = true)
    (h : ∀ i, i < s.params.n → clk { s with cw := m } i = clk s i) :
    exec .sync { s with cw := m } = .next { afterSync (runSync s) with cw := m } := by
  rw [exec_sync_of_legal (s := { s with cw := m }) hl, runSync_withCw h, afterSync_withCw]

/-- Settles O5: SYNC does not read the data bits. -/
theorem syncIgnoresTheDataLine : Obligations.SyncIgnoresTheDataLine :=
  fun _ _ hl hclk => ⟨_, exec_sync_of_legal hl, exec_sync_withCw hl hclk⟩

/-- A guarded operation without operands answers the same up to the window memory. -/
theorem whenLegal_withCw {s t u v : State} {m m' : Memory} (h : whenLegal s (.next u) = .next t)
    (hv : v = { u with cw := m' }) : whenLegal { s with cw := m } (.next v) = .next { t with cw := m' } := by
  rw [hv, eq_of_whenLegal_next h]
  exact whenLegal_of_legal (s := { s with cw := m }) (whenLegal_eq_next h).1 _

theorem applyRow_withCw {r : Nat} {s t : State} (m : Memory) (h : applyRow r s = .next t) :
    applyRow r { s with cw := m } = .next { t with cw := m } := by
  obtain ⟨row, hrow, rfl⟩ := applyRow_eq_next h
  simp only [applyRow, hrow] at h ⊢
  exact whenLegal_withCw h (applyGroup_withCw _ s m)

/-- R52: an instruction reads nothing of CW but the entries below N. -/
theorem exec_withCw {i : Instr} {s t : State} {m : Memory} (hm : SameBelow m s) (h : exec i s = .next t) :
    ∃ m', exec i { s with cw := m } = .next { t with cw := m' } := by
  have hl := paramsLegal_of_exec h
  cases i with
  | reset => exact ⟨m, whenLegal_withCw h rfl⟩
  | sync => exact ⟨m, eq_of_whenLegal_next h ▸ exec_sync_withCw hl hm.clk⟩
  | extract =>
    obtain ⟨hs, rfl⟩ := execExtract_eq_next h
    refine ⟨m, (exec_extract_of_lt (s := { s with cw := m }) hl hs).trans ?_⟩
    rw [runExtract_withCw hs hm.clk fun a _ ha _ => hm.dat a ha, afterExtract_withCw]
  | decode => exact ⟨m, whenLegal_withCw h rfl⟩
  | assemble =>
    refine ⟨m, whenLegal_withCw h ?_⟩
    rw [runAssemble_withCw, afterAssemble_withCw]
  | filter =>
    obtain ⟨hv, rfl⟩ := execFilter_eq_next h
    refine ⟨m, (exec_filter_of_candidate (s := { s with cw := m }) hl hv).trans ?_⟩
    rw [runFilter_withCw]
  | iterate =>
    rcases Bool.eq_false_or_eq_true s.busy with hb | hb
    · cases (execIterate_of_busy hl hb).symm.trans h
      exact ⟨m, execIterate_of_busy (s := { s with cw := m }) hl hb⟩
    · cases (execIterate_of_notBusy hl hb).symm.trans h
      obtain ⟨m', he⟩ := iterate_withCw hl hm
      exact ⟨m', (execIterate_of_notBusy (s := { s with cw := m }) hl hb).trans (congrArg _ he)⟩
  | unrecognized g => exact ⟨m, whenLegal_withCw h (applyGroup_withCw g s m)⟩
  | row0 | row1 | row2 | row3 | row4 | row5 | row6 | row7 | row8 | row9 | row10 | row11 | row12 =>
    exact ⟨m, applyRow_withCw m h⟩

/-- Settles O45: the entries above N - 1 are not among those an instruction reads. -/
theorem entriesAboveTheWindowHaveNoInfluence : Obligations.EntriesAboveTheWindowHaveNoInfluence :=
  fun _ _ _ _ hm h => exec_withCw hm h

/-! The working registers under each operation (R36). -/

theorem afterSync_work (s : State) : (afterSync s).work = s.work := by
  rcases afterSync_cases s with e | e <;> rw [e]
  rfl

theorem afterExtract_work (s : State) : (afterExtract s).work = s.work := by
  rcases afterExtract_cases s with e | e <;> rw [e]
  rfl

theorem exec_sync_work {s t : State} (h : exec .sync s = .next t) :
    t.work = { s.work with idx := t.work.idx, run := t.work.run,
                           syncFound := t.work.syncFound, syncIdx := t.work.syncIdx } := by
  rw [eq_of_whenLegal_next h, afterSync_work]
  rcases runSync_cases (paramsLegal_of_exec h) with ⟨a, b, -, e⟩ | ⟨r, -, -, -, e⟩ <;> rw [e]

theorem exec_extract_work {s t : State} (h : exec .extract s = .next t) :
    t.work = { s.work with idx := t.work.idx, run := t.work.run, sr := t.work.sr, nbits := t.work.nbits,
                           eofFound := t.work.eofFound, eofIdx := t.work.eofIdx } := by
  obtain ⟨hs, rfl⟩ := execExtract_eq_next h
  rw [afterExtract_work]
  rcases runExtract_cases (paramsLegal_of_exec h) hs with ⟨q, sr, nb, -, -, e⟩ | ⟨sr, nb, r, -, -, -, e⟩ <;> rw [e]

theorem exec_assemble_work {s t : State} (h : exec .assemble s = .next t) :
    t.work = { s.work with digValid := t.work.digValid, dig := t.work.dig,
                           valValid := t.work.valValid, val := t.work.val } := by
  rw [eq_of_whenLegal_next h, afterAssemble_work]
  cases hf : frameComplete s.work with
  | false => rw [runAssemble_incomplete hf]
  | true => rcases runAssemble_complete hf with ⟨-, e⟩ | ⟨-, e⟩ <;> rw [e] <;> rfl

/-- Settles O51: the results of each operation are updates of its own registers, and the transfer out of its phase
writes none of them. -/
theorem operationsWriteTheirOwnRegisters : Obligations.OperationsWriteTheirOwnRegisters := by
  refine fun s t => ⟨exec_sync_work, exec_extract_work, fun h => ?_, exec_assemble_work, fun h => ?_⟩
  · rw [eq_of_whenLegal_next h, runDecode_work]
    rfl
  · obtain ⟨-, rfl⟩ := execFilter_eq_next h
    exact (runFilter_fields _ s).1

end Sys2Proof.Machine
end

section
/-! PROOFS. EXTRACT's closed form (R124, R125, R126), what it reads of the data line (R128), and GAP = 1 (R131). -/

namespace Sys2Proof.Machine

/-! The two ends of EXTRACT, each decided by the window. -/

/-- A first gap decides EXTRACT. -/
theorem runExtract_firstGap {s : State} (hl : paramsLegal s.params = true) {start q : Nat}
    (hs : start < s.params.n) (hq : IsFirstGap (clk s) s.params.n s.params.gap start q) :
    ∃ sr nb, IsStreamOf (dat s) (edgesIn (clk s) start q) sr nb
      ∧ runExtract start s = { s with work := { s.work with
          idx := q, run := s.params.gap, sr := sr, nbits := nb, eofFound := true, eofIdx := q } } := by
  rcases runExtract_cases hl hs with ⟨q', sr, nb, hq', hst, he⟩ | ⟨-, -, -, hno, -⟩
  · obtain rfl := hq.unique hq'
    exact ⟨sr, nb, hst, he⟩
  · exact absurd hq.2.1 (hno q hq.1)

/-- Without a gap in the window EXTRACT is incomplete. -/
theorem runExtract_noGap {s : State} (hl : paramsLegal s.params = true) {start : Nat} (hs : start < s.params.n)
    (hno : ∀ q, q < s.params.n → ¬ IsGapAt (clk s) s.params.gap start q) :
    ∃ sr nb r, r < s.params.gap ∧ IsStreamOf (dat s) (edgesIn (clk s) start (s.params.n - 1)) sr nb
      ∧ runExtract start s = { s with work := { s.work with
          idx := if start + 1 < s.params.n then s.params.n - 1 else s.work.idx
          run := r, sr := sr, nbits := nb, eofFound := false, eofIdx := 0 } } := by
  rcases runExtract_cases hl hs with ⟨q, -, -, hq, -⟩ | ⟨sr, nb, r, -, hst, hr, he⟩
  · exact absurd hq.2.1 (hno q hq.1)
  · exact ⟨sr, nb, r, hr, hst, he⟩

theorem frameComplete_of_lt {w : Working} (h : w.nbits < 21) : frameComplete w = false := by
  simp [frameComplete, h]

theorem afterExtract_of_complete {s : State} (h : frameComplete s.work = true) :
    afterExtract s = { s with phase := .decode, group := 0 } := if_pos h

theorem afterExtract_of_incomplete {s : State} (h : frameComplete s.work = false) :
    afterExtract s = raise .incomplete s := if_neg (by simp [h])

/-- Settles O6: the scan ends at the first gap where there is one, and without one at the end of the window; 21 bits
before a gap make the frame complete. -/
theorem extractFollowsItsClosedForm : Obligations.ExtractFollowsItsClosedForm := by
  intro s hl hs
  rw [exec_extract_of_lt hl hs]
  refine ⟨fun q hq => ?_, fun hno => ?_⟩
  · obtain ⟨sr, nb, hst, he⟩ := runExtract_firstGap hl hs hq
    obtain ⟨hqn, ⟨hlow, -⟩, -⟩ := hq
    refine ⟨hlow, by omega, sr, nb, hst, fun h21 => ?_, fun hlt => ?_⟩
    · rw [he, afterExtract_of_complete ((frameComplete_iff _).2 ⟨rfl, h21.ge⟩)]
    · rw [he, afterExtract_of_incomplete (frameComplete_of_lt hlt)]
      rfl
  · obtain ⟨sr, nb, r, hr, hst, he⟩ := runExtract_noGap hl hs hno
    have hidx : (if s.work.syncIdx + 1 < s.params.n then s.params.n - 1 else s.work.idx)
        = if s.work.syncIdx + 1 = s.params.n then s.work.idx else s.params.n - 1 := by
      split <;> split <;> omega
    refine ⟨sr, nb, r, hr, hst, ?_⟩
    rw [he, afterExtract_of_incomplete rfl, hidx]
    rfl

/-- Settles O7: the guard of the start index is not met. -/
theorem extractRefusesAStartOutsideTheWindow : Obligations.ExtractRefusesAStartOutsideTheWindow := by
  intro s hl hs
  have hstart : ¬ extractStartLegal s.params s.work.syncIdx = true := fun h =>
    Nat.not_lt.2 hs (of_decide_eq_true h)
  exact (whenLegal_of_legal hl _).trans (if_neg hstart)

/-- R128: EXTRACT reads the clock levels below N, and the data at the falling edges above its start index. -/
theorem exec_extract_withCw {s : State} {m : Memory} (hl : paramsLegal s.params = true)
    (hs : s.work.syncIdx < s.params.n) (h : ∀ i, i < s.params.n → clk { s with cw := m } i = clk s i)
    (hd : ∀ i, s.work.syncIdx < i → i < s.params.n → fallingEdge (clk s) i = true →
      dat { s with cw := m } i = dat s i) :
    exec .extract { s with cw := m } = .next { afterExtract (runExtract s.work.syncIdx s) with cw := m } := by
  rw [exec_extract_of_lt (s := { s with cw := m }) hl hs, runExtract_withCw hs h hd, afterExtract_withCw]

/-- Settles O8: what differs between the two windows is not read. -/
theorem extractReadsDataAtFallingEdgesOnly : Obligations.ExtractReadsDataAtFallingEdgesOnly :=
  fun _ _ hl hs hclk hdat => ⟨_, exec_extract_of_lt hl hs, exec_extract_withCw hl hs hclk hdat⟩

/-! GAP = 1 (R131): a gap is one low sample, so at most one falling edge comes before the end of the first. -/

theorem isGapAt_one_iff {clk : Nat → Bool} {s q : Nat} : IsGapAt clk 1 s q ↔ s < q ∧ clk q = false := by
  refine ⟨fun ⟨hq, hlow⟩ => ⟨hq, hlow q (by omega) le_rfl⟩, fun ⟨hq, hlow⟩ => ⟨hq, fun i h1 h2 => ?_⟩⟩
  obtain rfl : i = q := by omega
  exact hlow

/-- The first low sample above the start index is the first gap. -/
theorem isFirstGap_one {clk : Nat → Bool} {n s p : Nat} (hs : s < p) (hn : p < n) (hp : clk p = false)
    (hhigh : ∀ i, s < i → i < p → clk i = true) : IsFirstGap clk n 1 s p := by
  refine ⟨hn, isGapAt_one_iff.2 ⟨hs, hp⟩, fun q hq hg => ?_⟩
  obtain ⟨hsq, hlow⟩ := isGapAt_one_iff.1 hg
  exact absurd (hlow.symm.trans (hhigh q hsq hq)) (by decide)

/-- Where no low sample comes before q, q alone can be an edge. -/
theorem edgesIn_length_le_one {clk : Nat → Bool} {s q : Nat} (hno : ∀ p, p < q → ¬ IsGapAt clk 1 s p) :
    (edgesIn clk s q).length ≤ 1 := by
  have hmem : ∀ p ∈ edgesIn clk s q, p = q := fun p hp => by
    obtain ⟨hsp, hpq, -, hlow⟩ := mem_edgesIn.1 hp
    exact hpq.eq_or_lt.resolve_right fun hlt => hno p hlt (isGapAt_one_iff.2 ⟨hsp, hlow⟩)
  have hsub : edgesIn clk s q ⊆ [q] := fun p hp => List.mem_singleton.2 (hmem p hp)
  exact ((edgesIn_pairwise clk s q).nodup.subperm hsub).length_le

theorem IsStreamOf.nbits_le_one {clk dat : Nat → Bool} {s q nb : Nat} {sr : Stream}
    (hst : IsStreamOf dat (edgesIn clk s q) sr nb) (hno : ∀ p, p < q → ¬ IsGapAt clk 1 s p) : nb ≤ 1 :=
  hst.1.trans_le ((min_le_right _ _).trans (edgesIn_length_le_one hno))

theorem runExtract_nbits_le_one {s : State} (hl : paramsLegal s.params = true) (hg : s.params.gap = 1) {start : Nat}
    (hs : start < s.params.n) : (runExtract start s).work.nbits ≤ 1 := by
  rcases runExtract_cases hl hs with ⟨q, sr, nb, hq, hst, he⟩ | ⟨sr, nb, r, hno, hst, -, he⟩ <;> rw [he]
  · exact hst.nbits_le_one (hg ▸ hq.2.2)
  · exact hst.nbits_le_one fun p hp => hg ▸ hno p (by omega)

theorem FrameRead.nbits_le_one {s : State} {j : Nat} {w : Working} (hw : FrameRead s j w)
    (hg : s.params.gap = 1) : w.nbits ≤ 1 := by
  rcases hw with ⟨q, sr, nb, hq, hst, rfl⟩ | ⟨sr, nb, r, hno, hst, -, rfl⟩
  · exact hst.nbits_le_one (hg ▸ hq.2.2)
  · exact hst.nbits_le_one fun p hp => hg ▸ hno p (by omega)

theorem frameComplete_of_le_one {w : Working} (h : w.nbits ≤ 1) : frameComplete w = false :=
  frameComplete_of_lt (by omega)

/-- An iteration with GAP = 1 finds no idle run or reads an incomplete frame. -/
theorem iterate_gapOne {s : State} (hl : paramsLegal s.params = true) (hg : s.params.gap = 1) :
    (iterate s).work.nbits ≤ 1
      ∧ ((iterate s).status = .syncFail ∨ (iterate s).status = .incomplete) := by
  rcases iterate_spec hl with ⟨r, -, -, -, e⟩ | ⟨a, j, w, -, hw, hend⟩
  · exact e ▸ ⟨Nat.zero_le 1, .inl rfl⟩
  · have hnb := hw.nbits_le_one hg
    have hinc := frameComplete_of_le_one hnb
    rcases hend with ⟨-, e⟩ | ⟨hc, -⟩ | ⟨hc, -⟩ | ⟨hc, -⟩
    · exact e ▸ ⟨hnb, .inr rfl⟩
    all_goals exact absurd (hinc.symm.trans hc) (by decide)

theorem paramsLegal_gapOne {p : Params} (h : paramsLegal p = true) : paramsLegal { p with gap := 1 } = true := by
  obtain ⟨hn, -, hstab, htable⟩ := (paramsLegal_iff p).1 h
  exact (paramsLegal_iff _).2 ⟨hn, le_rfl, hstab, htable⟩

/-- Settles O9: the first low sample is the first gap, so EXTRACT ends there with at most one bit. -/
theorem gapOneNeverCompletesAFrame : Obligations.GapOneNeverCompletesAFrame := by
  refine ⟨fun _ => paramsLegal_gapOne, fun s hl hg hs => ?_, fun s hl hg hb => ?_⟩
  · have hnb := runExtract_nbits_le_one hl hg hs
    refine ⟨_, exec_extract_of_lt hl hs, ?_⟩
    rw [afterExtract_work]
    refine ⟨hnb, frameComplete_of_le_one hnb, fun p hsp hpn hp hhigh => ?_⟩
    obtain ⟨sr, nb, -, he⟩ := runExtract_firstGap hl hs (hg.symm ▸ isFirstGap_one hsp hpn hp hhigh)
    rw [he]
    exact ⟨rfl, rfl⟩
  · obtain ⟨hnb, hend⟩ := iterate_gapOne hl hg
    exact ⟨_, execIterate_of_notBusy hl hb, hnb, frameComplete_of_le_one hnb, hend⟩

end Sys2Proof.Machine
end

section
/-! PROOFS. DECODE by the first-match rule: of the three groups (R136, R137, R142), of the all-zero group (R139), and
of a row's own group (R97, R140). -/

namespace Sys2Proof.Machine

/-! The digit registers of a decoded group (R137). -/

theorem digitDecoded_of_firstRow {t : Table} {w : Working} {k : Fin 3} {r : Nat} {row : Row}
    (hdec : digitDecoded t w k) (h : IsFirstRow t (groupOf w.sr k) r row) :
    tripleGet w.digValid k = true ∧ tripleGet w.dig k = row.value := by
  obtain ⟨hvalid, hdig⟩ := hdec
  rw [decodeDigit_of_firstRow h] at hvalid hdig
  exact ⟨hvalid, hdig⟩

theorem digitCleared_of_noRow {t : Table} {w : Working} {k : Fin 3} (hdec : digitDecoded t w k)
    (h : NoRowHas t (groupOf w.sr k)) : digitCleared w k := by
  obtain ⟨hvalid, hdig⟩ := hdec
  rw [decodeDigit_of_noRow h] at hvalid hdig
  exact ⟨hvalid, hdig⟩

/-- Settles O10: the new registers hold DECODE of each group, which its first row or the want of one decides. -/
theorem decodeWritesTheFirstMatchOfEachGroup : Obligations.DecodeWritesTheFirstMatchOfEachGroup := by
  intro s hl
  refine ⟨_, _, exec_decode_of_legal hl, fun k => ?_⟩
  have hdec := decodedWork_digits s.params.table s.work k
  exact ⟨fun _ _ => digitDecoded_of_firstRow hdec, digitCleared_of_noRow hdec⟩

/-! The all-zero group (R92 (f), R139). -/

/-- R92 (f) about the rows from row 10 on: the third of them, the last, is the all-zero one with value 0. -/
theorem lastRowsLegal_allZero {plain last : List Row} (h : lastRowsLegal plain last = true) :
    ∃ z, last[2]? = some z ∧ z.pattern = 0 ∧ z.value = 0 := by
  unfold lastRowsLegal at h
  split at h
  · next a b z =>
    simp only [Bool.and_eq_true, beq_iff_eq] at h
    obtain ⟨⟨-, hpat⟩, hval⟩ := h
    exact ⟨z, rfl, hpat, hval⟩
  · cases h

/-- Row 12 of an admissible table is the all-zero pattern with value 0. -/
theorem tableLegal_row12 {t : Table} (h : tableLegal t = true) :
    ∃ z, romRow t 12 = some z ∧ z.pattern = 0 ∧ z.value = 0 := by
  simp only [tableLegal, Bool.and_eq_true] at h
  obtain ⟨-, hlast⟩ := h
  obtain ⟨z, hz, hpat, hval⟩ := lastRowsLegal_allZero hlast
  rw [List.getElem?_drop] at hz
  exact ⟨z, hz, hpat, hval⟩

/-- Settles O13: where no earlier row is all-zero, row 12 is the first that is. -/
theorem allZeroGroupDecodesToZero : Obligations.AllZeroGroupDecodesToZero := by
  refine fun t ht => ⟨fun hno => ?_, fun _ _ => decodeDigit_of_firstRow⟩
  obtain ⟨z, hz, hpat, hval⟩ := tableLegal_row12 ht
  have hfirst : IsFirstRow t 0 12 z := ⟨hz, hpat, hno⟩
  rw [decodeDigit_of_firstRow hfirst, hval]

/-! The group of a table row (R97, R140). -/

theorem applyRow_of_romRow {s : State} (hl : paramsLegal s.params = true) {r : Nat} {row : Row}
    (hr : romRow s.params.table r = some row) : applyRow r s = .next (applyGroup row.pattern s) := by
  rw [applyRow, whenLegal_of_legal hl, hr]

/-- DECODE of a group writes the value of its first row for the group in turn. -/
theorem applyGroup_of_firstRow {s : State} {g : Group} {r : Nat} {row : Row}
    (h : IsFirstRow s.params.table g r row) :
    applyGroup g s = { s with
      work := { s.work with digValid := tripleSet s.work.digValid s.group true,
                            dig := tripleSet s.work.dig s.group row.value }
      phase := if s.group = 2 then .assemble else .decode
      group := if s.group = 2 then 0 else s.group + 1 } := by
  rw [applyGroup_eq, decodeDigit_of_firstRow h]
  rfl

/-- Settles O14: row r has its own pattern, so some row up to r is the first with it, and DECODE writes its value. -/
theorem rowGroupsDecodeByFirstMatch : Obligations.RowGroupsDecodeByFirstMatch := by
  intro s r i hl hi
  obtain ⟨row, hrow⟩ := romRow_isSome (paramsLegal_table hl) (rowInstr_lt hi)
  obtain ⟨r0, row0, hfirst, hle⟩ := exists_firstRow hrow
  refine ⟨row, r0, row0, hrow, hfirst, hle, ?_⟩
  rw [exec_of_rowInstr hi, applyRow_of_romRow hl hrow, applyGroup_of_firstRow hfirst]

end Sys2Proof.Machine
end

section
/-! PROOFS. ASSEMBLE: the value of a complete frame (R151 to R154), the two causes of Invalid (R155), and the operands
it depends on (R150). -/

namespace Sys2Proof.Machine

/-! ASSEMBLE as a function of the table and the working registers. -/

/-- The working registers after ASSEMBLE: the digits of a complete frame and their sum, or Invalid (R151). -/
def assembledWork (t : Table) (w : Working) : Working :=
  if frameComplete w then
    if allRecognized (decodedWork t w).digValid then
      { decodedWork t w with valValid := true, val := assembledValue (decodedWork t w).dig }
    else { decodedWork t w with valValid := false, val := 0 }
  else { w with valValid := false, val := 0 }

theorem assembledWork_of_incomplete {w : Working} (h : frameComplete w = false) (t : Table) :
    assembledWork t w = { w with valValid := false, val := 0 } := if_neg (by simp [h])

theorem assembledWork_of_allRecognized {t : Table} {w : Working} (hf : frameComplete w = true)
    (hall : allRecognized (decodedWork t w).digValid = true) :
    assembledWork t w
      = { decodedWork t w with valValid := true, val := assembledValue (decodedWork t w).dig } := by
  rw [assembledWork, if_pos hf, if_pos hall]

theorem assembledWork_of_unrecognized {t : Table} {w : Working} (hf : frameComplete w = true)
    (hall : allRecognized (decodedWork t w).digValid = false) :
    assembledWork t w = { decodedWork t w with valValid := false, val := 0 } := by
  rw [assembledWork, if_pos hf, if_neg (by simp [hall])]

theorem runAssemble_work (s : State) :
    runAssemble s = withWork (assembledWork s.params.table s.work) s := by
  cases hf : frameComplete s.work with
  | false => rw [runAssemble_incomplete hf, assembledWork_of_incomplete hf, withWork]
  | true =>
    rcases runAssemble_complete hf with ⟨hall, e⟩ | ⟨hall, e⟩
    · rw [e, assembledWork_of_allRecognized hf hall, withWork]
    · rw [e, assembledWork_of_unrecognized hf hall, withWork]

/-- ASSEMBLE as its outcome: the new working registers, then the transfer out of P_ASSEMBLE. -/
theorem exec_assemble_of_legal {s : State} (hl : paramsLegal s.params = true) :
    exec .assemble s = .next (afterAssemble (withWork (assembledWork s.params.table s.work) s)) :=
  (whenLegal_of_legal hl _).trans (by rw [runAssemble_work])

/-! The sum of three recognized digits (R151, R152, R154). -/

theorem decodedWork_of_digits {t : Table} {w : Working} {v0 v1 v2 : Digit}
    (h0 : decodeDigit t (groupOf w.sr 0) = .digit v0) (h1 : decodeDigit t (groupOf w.sr 1) = .digit v1)
    (h2 : decodeDigit t (groupOf w.sr 2) = .digit v2) :
    decodedWork t w = { w with digValid := ⟨true, true, true⟩, dig := ⟨v0, v1, v2⟩ } := by
  simp only [decodedWork, h0, h1, h2, digitValid, digitValue]

theorem assembledWork_of_digits {t : Table} {w : Working} (hf : frameComplete w = true) {v0 v1 v2 : Digit}
    (h0 : decodeDigit t (groupOf w.sr 0) = .digit v0) (h1 : decodeDigit t (groupOf w.sr 1) = .digit v1)
    (h2 : decodeDigit t (groupOf w.sr 2) = .digit v2) :
    assembledWork t w = { w with digValid := ⟨true, true, true⟩, dig := ⟨v0, v1, v2⟩
                                 valValid := true, val := assembledValue ⟨v0, v1, v2⟩ } := by
  have hd := decodedWork_of_digits h0 h1 h2
  rw [assembledWork_of_allRecognized hf (by rw [hd]; rfl), hd]

/-- Settles O21: the three digits are at most 9, so their sum does not wrap; the transfer tests it for 0. -/
theorem assembleSumsTheThreeDigits : Obligations.AssembleSumsTheThreeDigits := by
  intro s v0 v1 v2 hl hf h0 h1 h2
  have ht := paramsLegal_table hl
  have l0 := decodeDigit_le ht h0
  have l1 := decodeDigit_le ht h1
  have l2 := decodeDigit_le ht h2
  have hsum : (assembledValue ⟨v0, v1, v2⟩).toNat = 100 * v0.toNat + 10 * v1.toNat + v2.toNat :=
    assembledValue_toNat l0 l1 l2
  rw [exec_assemble_of_legal hl, assembledWork_of_digits hf h0 h1 h2]
  refine ⟨assembledValue ⟨v0, v1, v2⟩, hsum, by omega, fun hpos => ?_, fun hzero => ?_⟩
  · have hne : assembledValue ⟨v0, v1, v2⟩ ≠ 0 := fun h => by simp [h] at hpos
    rw [afterAssemble_candidate rfl hne]
    rfl
  · rw [afterAssemble_zero rfl hzero, hzero]
    rfl

/-! The two causes of Invalid (R153, R155). -/

/-- Settles O22: one cleared valid bit is enough for Invalid, and the digits are DECODE's. -/
theorem oneUnrecognizedDigitSpoilsTheFrame : Obligations.OneUnrecognizedDigitSpoilsTheFrame := by
  intro s k hl hf hk
  have hdec := decodedWork_digits s.params.table s.work
  obtain ⟨hvalid, hdig⟩ : digitCleared (decodedWork s.params.table s.work) k := by
    have ⟨hv, hd⟩ := hdec k
    rw [decodedWork_sr, hk] at hv hd
    exact ⟨hv, hd⟩
  have hall : allRecognized (decodedWork s.params.table s.work).digValid = false :=
    Bool.eq_false_iff.2 fun h => absurd ((allRecognized_iff _).1 h k) (by simp [hvalid])
  refine ⟨_, _, hvalid, hdig, hdec, ?_⟩
  rw [exec_assemble_of_legal hl, assembledWork_of_unrecognized hf hall]
  exact congrArg _ (afterAssemble_invalid rfl hf)

theorem afterAssemble_incomplete {s : State} (hv : s.work.valValid = false) (hf : frameComplete s.work = false) :
    afterAssemble s = raise .incomplete s := by
  simp [afterAssemble, hv, hf]

theorem frameComplete_of_noEof {w : Working} (h : w.eofFound = false) : frameComplete w = false := by
  simp [frameComplete, h]

/-- Settles O23: without the end of frame or with fewer than 21 bits nothing is decoded. -/
theorem assembleRejectsAnIncompleteFrame : Obligations.AssembleRejectsAnIncompleteFrame := by
  intro s hl h
  have hf : frameComplete s.work = false := h.elim frameComplete_of_noEof frameComplete_of_lt
  rw [exec_assemble_of_legal hl, assembledWork_of_incomplete hf]
  exact congrArg _ (afterAssemble_incomplete rfl hf)

/-! What ASSEMBLE depends on (R150). -/

@[simp] theorem assembledWork_frameComplete (t : Table) (w : Working) :
    frameComplete (assembledWork t w) = frameComplete w := by
  unfold assembledWork
  split
  · split <;> rfl
  · rfl

/-- The two register sets agree in the operands of ASSEMBLE. -/
structure SameOperands (w1 w2 : Working) : Prop where
  sr       : w1.sr = w2.sr
  nbits    : w1.nbits = w2.nbits
  eofFound : w1.eofFound = w2.eofFound

theorem SameOperands.frameComplete {w1 w2 : Working} (h : SameOperands w1 w2) :
    frameComplete w1 = frameComplete w2 := by
  simp only [Machine.frameComplete, h.nbits, h.eofFound]

theorem SameOperands.decodedDigits {w1 w2 : Working} (h : SameOperands w1 w2) (t : Table) :
    (decodedWork t w1).digValid = (decodedWork t w2).digValid
      ∧ (decodedWork t w1).dig = (decodedWork t w2).dig := by
  simp only [decodedWork, h.sr, and_self]

theorem SameOperands.assembledVal {w1 w2 : Working} (h : SameOperands w1 w2) (t : Table) :
    (assembledWork t w1).valValid = (assembledWork t w2).valValid
      ∧ (assembledWork t w1).val = (assembledWork t w2).val := by
  obtain ⟨hvalid, hdig⟩ := h.decodedDigits t
  unfold assembledWork
  rw [h.frameComplete, hvalid, hdig]
  split
  · split <;> exact ⟨rfl, rfl⟩
  · exact ⟨rfl, rfl⟩

/-- On a complete frame ASSEMBLE writes DECODE's digits. -/
theorem assembledWork_digits_of_complete {w : Working} (hf : frameComplete w = true) (t : Table) :
    (assembledWork t w).digValid = (decodedWork t w).digValid
      ∧ (assembledWork t w).dig = (decodedWork t w).dig := by
  rw [assembledWork, if_pos hf]
  split <;> exact ⟨rfl, rfl⟩

/-- On an incomplete frame ASSEMBLE leaves the digits. -/
theorem assembledWork_digits_of_incomplete {w : Working} (hf : frameComplete w = false) (t : Table) :
    (assembledWork t w).digValid = w.digValid ∧ (assembledWork t w).dig = w.dig := by
  rw [assembledWork_of_incomplete hf]
  exact ⟨rfl, rfl⟩

theorem SameOperands.assembledDigits {w1 w2 : Working} (h : SameOperands w1 w2) (t : Table)
    (hf : Machine.frameComplete w1 = true) :
    (assembledWork t w1).digValid = (assembledWork t w2).digValid
      ∧ (assembledWork t w1).dig = (assembledWork t w2).dig := by
  obtain ⟨hv1, hd1⟩ := assembledWork_digits_of_complete hf t
  obtain ⟨hv2, hd2⟩ := assembledWork_digits_of_complete (h.frameComplete ▸ hf) t
  rw [hv1, hd1, hv2, hd2]
  exact h.decodedDigits t

/-- ASSEMBLE of its own results writes them again: it keeps its operands. -/
@[simp] theorem assembledWork_twice (t : Table) (w : Working) :
    assembledWork t (assembledWork t w) = assembledWork t w := by
  cases hf : frameComplete w with
  | false =>
    rw [assembledWork_of_incomplete hf]
    exact assembledWork_of_incomplete hf t
  | true =>
    cases hall : allRecognized (decodedWork t w).digValid with
    | true =>
      rw [assembledWork_of_allRecognized hf hall]
      exact assembledWork_of_allRecognized hf hall
    | false =>
      rw [assembledWork_of_unrecognized hf hall]
      exact assembledWork_of_unrecognized hf hall

theorem exec_assemble_next {s t : State} (h : exec .assemble s = .next t) :
    t.work = assembledWork s.params.table s.work ∧ t.params = s.params := by
  refine ⟨?_, (exec_keepsWindow (i := .assemble) nofun nofun h).params⟩
  rw [eq_of_whenLegal_next h, runAssemble_work, afterAssemble_work, withWork_work]

/-- ASSEMBLE run again on what it left leaves the same working registers. -/
theorem exec_assemble_again {s t : State} (h : exec .assemble s = .next t) :
    ∃ u, exec .assemble t = .next u ∧ u.work = t.work := by
  obtain ⟨hw, hp⟩ := exec_assemble_next h
  refine ⟨_, exec_assemble_of_legal (hp ▸ paramsLegal_of_exec h), ?_⟩
  rw [afterAssemble_work, withWork_work, hp, hw, assembledWork_twice]

/-- Settles O24: the new registers are a function of the table and the operands, and what follows is read off them. -/
theorem assembleIsPure : Obligations.AssembleIsPure := by
  refine ⟨fun s1 s2 hl1 hl2 ht hsr hnb heof => ?_, fun _ _ => exec_assemble_again⟩
  have hop : SameOperands s1.work s2.work := ⟨hsr, hnb, heof⟩
  obtain ⟨hvalid, hval⟩ := hop.assembledVal s1.params.table
  refine ⟨_, _, exec_assemble_of_legal hl1, exec_assemble_of_legal hl2, ?_⟩
  rw [afterAssemble_work, afterAssemble_work, withWork_work, withWork_work, ← ht]
  obtain ⟨hphase, hstatus⟩ := afterAssemble_end
    (s1 := withWork (assembledWork s1.params.table s1.work) s1)
    (s2 := withWork (assembledWork s1.params.table s2.work) s2) hvalid hval (by simp [hop.frameComplete])
  refine ⟨hvalid, hval, hphase, hstatus, hop.assembledDigits _, fun hf => ?_⟩
  obtain ⟨hv1, hd1⟩ := assembledWork_digits_of_incomplete hf s1.params.table
  obtain ⟨hv2, hd2⟩ := assembledWork_digits_of_incomplete (hop.frameComplete ▸ hf) s1.params.table
  exact ⟨hv1, hd1, hv2, hd2⟩

end Sys2Proof.Machine
end

section
/-! PROOFS. FILTER: an equation for each row of its transition table (R162, R163), the refusal outside its range
(R169 (f)), and a candidate fed repeatedly (R164, R166, R168). -/

namespace Sys2Proof.Machine

/-! The rows of the transition table (R163). -/

theorem differsFromCommitted_iff (S : Stability) (v : Value) :
    differsFromCommitted S v = true ↔ S.lcValid = false ∨ S.lc ≠ v := by
  simp [differsFromCommitted]

section Rows
variable {stab : Nat} {S : Stability} {v : Value}

theorem filterStep_of_notCandidate (h : S.candValid = false ∨ S.cand ≠ v) :
    filterStep stab S v = ({ S with candValid := true, cand := v, count := 1 }, .noCommit) := by
  rcases filterStep_cases stab S v with ⟨-, e⟩ | ⟨hc, hv, -⟩ | ⟨hc, hv, -⟩ | ⟨hc, hv, -⟩ | ⟨hc, hv, -⟩
  · exact e
  all_goals exact absurd h (by simp [hc, hv])

theorem filterStep_of_change (hc : S.candValid = true) (hv : v ≠ S.cand) :
    filterStep stab S v = ({ S with cand := v, count := 1 }, .noCommit) := by
  rw [filterStep_of_notCandidate (.inr hv.symm), ← hc]

variable (hc : S.candValid = true) (hv : S.cand = v)
include hc hv

theorem filterStep_of_repeat (hlt : S.count + 1 < stab) :
    filterStep stab S v = ({ S with count := S.count + 1 }, .noCommit) := by
  simp [filterStep, hc, hv, Nat.lt_of_succ_lt hlt, Nat.ne_of_lt hlt]

theorem filterStep_of_commit (hn : S.count + 1 = stab) (hd : S.lcValid = false ∨ S.lc ≠ v) :
    filterStep stab S v = ({ S with count := stab, lcValid := true, lc := v }, .commit v) := by
  simp [filterStep, hc, hv, ← hn, (differsFromCommitted_iff S v).2 hd]

theorem filterStep_of_committed (hn : S.count + 1 = stab) (hd : ¬ (S.lcValid = false ∨ S.lc ≠ v)) :
    filterStep stab S v = ({ S with count := stab }, .noCommit) := by
  simp [filterStep, hc, hv, ← hn, mt (differsFromCommitted_iff S v).1 hd]

theorem filterStep_of_stable (hn : stab ≤ S.count) : filterStep stab S v = (S, .noCommit) := by
  simp [filterStep, hc, hv, Nat.not_lt.2 hn]

end Rows

/-! FILTER as its outcome (R167, R182). -/

theorem runFilter_of_noCommit {s : State} {v : Value} {S' : Stability}
    (h : filterStep s.params.stab s.stability v = (S', .noCommit)) :
    runFilter v s = endIteration .accepted false 0 { s with stability := S' } := by
  rw [runFilter, h]

theorem runFilter_of_commit {s : State} {v c : Value} {S' : Stability}
    (h : filterStep s.params.stab s.stability v = (S', .commit c)) :
    runFilter v s = endIteration .accepted true c { s with stability := S' } := by
  rw [runFilter, h]

theorem filterState_of_lt {stab : Nat} {S : Stability} (hc : S.candValid = true) (hlt : S.count < stab) :
    filterState stab S = .accumulating := by
  simp [filterState, hc, hlt]

/-- Settles O26: the register conditions of each row give its equation of FILTER(S, v), and the end of the iteration
writes the rest; the new state has a candidate, so its count alone tells Accumulating from Stable. -/
theorem filterFollowsItsTransitionTable : Obligations.FilterFollowsItsTransitionTable := by
  rintro s v S hl rfl rfl h1 h999
  have hexec := exec_filter_of_candidate hl ((candidateLegal_iff _).2 ⟨h1, h999⟩)
  have hstab := paramsLegal_stab hl
  have hno {S'} (h : filterStep s.params.stab s.stability s.work.val = (S', .noCommit)) :=
    hexec.trans (congrArg _ (runFilter_of_noCommit h))
  have hcommit {S'} (h : filterStep s.params.stab s.stability s.work.val = (S', .commit s.work.val)) :=
    hexec.trans (congrArg _ (runFilter_of_commit h))
  obtain ⟨-, -, -, -, -, -, -, hcand, -⟩ := runFilter_fields s.work.val s
  exact ⟨fun hc => hno (filterStep_of_notCandidate (.inl hc)),
    fun hc _ hv => hno (filterStep_of_change hc hv),
    fun hc hv hlt => hno (filterStep_of_repeat hc hv.symm hlt),
    fun hc hv hn hd => hcommit (filterStep_of_commit hc hv.symm hn hd),
    fun hc hv hn hval hlc => hno (filterStep_of_committed hc hv.symm hn (by simp [hval, hlc])),
    fun hc _ hv => hno (filterStep_of_change hc hv),
    fun hc hn hv => hno (filterStep_of_stable hc hv.symm hn.ge),
    _, hexec, hcand, filterState_of_lt hcand,
    fun hn => (filterState_eq_stable_iff _ _).2 ⟨hcand, hn.ge⟩,
    fun hn => filterState_of_lt hcand (hn.trans_lt hstab)⟩

/-- Settles O27: a value outside 1 to 999 is no candidate. -/
theorem filterRefusesValuesOutsideItsRange : Obligations.FilterRefusesValuesOutsideItsRange := by
  intro s hl hv
  have hno : ¬ candidateLegal s.work.val = true := by
    rw [candidateLegal_iff]
    omega
  exact (whenLegal_of_legal hl _).trans (if_neg hno)

/-! FILTER fed with a sequence (R168). -/

theorem filterFeed_cons (stab : Nat) (S : Stability) (v : Value) (vs : List Value) :
    filterFeed stab S (v :: vs)
      = ((filterStep stab S v).2 :: (filterFeed stab (filterStep stab S v).1 vs).1,
          (filterFeed stab (filterStep stab S v).1 vs).2) := rfl

theorem filterFeed_append_results (stab : Nat) (S : Stability) (vs ws : List Value) :
    (filterFeed stab S (vs ++ ws)).1
      = (filterFeed stab S vs).1 ++ (filterFeed stab (filterFeed stab S vs).2 ws).1 := by
  induction vs generalizing S with
  | nil => rfl
  | cons v vs ih => simp [filterFeed_cons, ih]

section Repeats
variable {stab : Nat} {S : Stability} {v : Value}

/-- Accumulating: the counter runs through the repeats below the threshold (R162). -/
theorem filterFeed_repeats_below (hc : S.candValid = true) (hv : S.cand = v) {k : Nat} (h : S.count + k < stab) :
    filterFeed stab S (List.replicate k v) = (List.replicate k .noCommit, { S with count := S.count + k }) := by
  induction k generalizing S with
  | zero => rfl
  | succ k ih =>
    have hstep := filterStep_of_repeat hc hv (show S.count + 1 < stab by omega)
    have hrest := ih (S := { S with count := S.count + 1 }) hc hv (show S.count + 1 + k < stab by omega)
    rw [List.replicate_succ, filterFeed_cons, hstep, hrest, List.replicate_succ]
    simp only [Nat.add_assoc, Nat.add_comm 1 k]

/-- Stable absorbs its own candidate (R166). -/
theorem filterFeed_repeats_stable (hc : S.candValid = true) (hv : S.cand = v) (hn : stab ≤ S.count) (k : Nat) :
    filterFeed stab S (List.replicate k v) = (List.replicate k .noCommit, S) := by
  induction k with
  | zero => rfl
  | succ k ih =>
    rw [List.replicate_succ, filterFeed_cons, filterStep_of_stable hc hv hn, ih, List.replicate_succ]

/-- The first of the repeats replaces the candidate, the others are counted. -/
theorem filterFeed_new_below (h : S.candValid = false ∨ S.cand ≠ v) {k : Nat} (hk : k + 1 < stab) :
    filterFeed stab S (List.replicate (k + 1) v)
      = (List.replicate (k + 1) .noCommit, { S with candValid := true, cand := v, count := k + 1 }) := by
  have hrest := filterFeed_repeats_below (stab := stab) (S := { S with candValid := true, cand := v, count := 1 })
    rfl rfl (show 1 + k < stab by omega)
  rw [List.replicate_succ, filterFeed_cons, filterStep_of_notCandidate h, hrest, List.replicate_succ, Nat.add_comm 1 k]

/-- R164: the repeat that reaches the threshold is the only one that can commit. -/
theorem filterFeed_repeats_from_threshold (hc : S.candValid = true) (hv : S.cand = v) (hn : S.count + 1 = stab)
    (k : Nat) :
    (filterFeed stab S (v :: List.replicate k v)).1
      = (if S.lcValid = false ∨ S.lc ≠ v then .commit v else .noCommit) :: List.replicate k .noCommit := by
  rw [filterFeed_cons]
  split
  · next hd =>
    rw [filterStep_of_commit hc hv hn hd, filterFeed_repeats_stable]
    exacts [hc, hv, le_rfl]
  · next hd =>
    rw [filterStep_of_committed hc hv hn hd, filterFeed_repeats_stable]
    exacts [hc, hv, le_rfl]

end Repeats

/-- Settles O28: the first STAB - 1 times are counted, the STAB-th reaches the threshold, and the rest are in Stable. -/
theorem repeatedValueCommitsExactlyOnce : Obligations.RepeatedValueCommitsExactlyOnce := by
  intro stab S v m hstab hnew
  refine ⟨fun hm => ?_, fun hm => ?_⟩
  · cases m with
    | zero => rfl
    | succ k => rw [filterFeed_new_below hnew hm]
  · obtain ⟨k, rfl⟩ := Nat.exists_eq_add_of_le' hstab
    have hsplit : List.replicate m v = List.replicate (k + 1) v ++ v :: List.replicate (m - (k + 2)) v := by
      rw [← List.replicate_succ, List.replicate_append_replicate]
      congr 1
      omega
    rw [hsplit, filterFeed_append_results, filterFeed_new_below hnew (Nat.lt_succ_self _),
      filterFeed_repeats_from_threshold]
    all_goals rfl

end Sys2Proof.Machine
end

section
/-! PROOFS. What each step answers, phase by phase (R181): every state of the invariant has a next one (R184, R208), its
transfer is one of the phase table, and what the outside does keeps the invariant (R187, R230). -/

namespace Sys2Proof.Machine

/-! The input pins (R187, R188). -/

theorem takeInputs_of_low {s : State} (hr : s.rst = false) (hs : s.start = false) : takeInputs s = s := by
  cases s
  cases hr
  cases hs
  rfl

/-- A busy CORE does not look at start (R186). -/
theorem fetch_of_busy_withoutStart {s : State} (hb : s.busy = true) : fetch { s with start := false } = fetch s := by
  simp [fetch, fetchWaiting, fetchDecode, hb]

/-- Settles O33: the fetch does not look at start, and the step takes it back. -/
theorem startWhileBusyIsIgnored : Obligations.StartWhileBusyIsIgnored := by
  refine fun s hb => ⟨?_, fun hl => execIterate_of_busy hl hb⟩
  rw [step, step, fetch_of_busy_withoutStart hb]
  rfl

/-! The step in each phase, from the state with the input pins taken. -/

theorem step_wait {s : State} (hl : paramsLegal s.params = true) (hr : s.rst = false)
    (hp : s.phase = .idle ∨ s.phase = .done) (h : (s.start && !s.busy) = false) : step s = .next (takeInputs s) :=
  (step_of_wait ((fetch_of_waiting hr hp).trans (fetchWaiting_wait h))).trans (whenLegal_of_legal hl _)

/-- Settles O47: without start CORE waits, and the pins are low already. -/
theorem coreWaitsForStart : Obligations.CoreWaitsForStart := by
  intro s hl hr hs hp
  rw [step_wait hl hr hp (by rw [hs, Bool.false_and]), takeInputs_of_low hr hs]

theorem step_accept {s : State} (hl : paramsLegal s.params = true) (hr : s.rst = false)
    (hp : s.phase = .idle ∨ s.phase = .done) (hs : s.start = true) (hb : s.busy = false) (hc : s.cut ≠ .iteration) :
    step s = .next (acceptStart (takeInputs s)) :=
  (step_of_accept ((fetch_of_waiting hr hp).trans (fetchWaiting_accept hs hb hc))).trans (whenLegal_of_legal hl _)

theorem step_iterate {s : State} (hl : paramsLegal s.params = true) (hr : s.rst = false)
    (hp : s.phase = .idle ∨ s.phase = .done) (hs : s.start = true) (hb : s.busy = false) (hc : s.cut = .iteration) :
    step s = .next (iterate (takeInputs s)) :=
  (step_of_word (i := .iterate) ((fetch_of_waiting hr hp).trans (fetchWaiting_iterate hs hb hc)) rfl).trans
    (execIterate_of_notBusy (s := takeInputs s) hl hb)

theorem step_sync {s : State} (hl : paramsLegal s.params = true) (hr : s.rst = false) (hp : s.phase = .sync) :
    step s = .next (afterSync (runSync (takeInputs s))) :=
  (step_of_phase hr hp rfl nofun rfl).trans (exec_sync_of_legal (s := takeInputs s) hl)

theorem step_extract {s : State} (hl : paramsLegal s.params = true) (hr : s.rst = false) (hp : s.phase = .extract)
    (hj : s.work.syncIdx < s.params.n) :
    step s = .next (afterExtract (runExtract s.work.syncIdx (takeInputs s))) :=
  (step_of_phase hr hp rfl nofun rfl).trans (exec_extract_of_lt (s := takeInputs s) hl hj)

theorem step_decode {s : State} (hl : paramsLegal s.params = true) (hr : s.rst = false) (hp : s.phase = .decode)
    (hc : s.cut ≠ .group) :
    step s = .next { runDecode (takeInputs s) with phase := .assemble, group := 0 } :=
  have hf : fetch s = .word (.op Phase.decode.code) := hp ▸ fetch_of_busy hr (by rw [hp]; rfl) fun _ => hc
  (step_of_word (i := .decode) hf rfl).trans (whenLegal_of_legal (s := takeInputs s) hl _)

/-- Every row number of an admissible table is that of an instruction. -/
theorem rowInstr_of_lt {r : Nat} (h : r < 13) : ∃ i, rowInstr r = .ok i := by
  interval_cases r <;> exact ⟨_, rfl⟩

/-- Under an admissible table every segment group is an instruction, which applies DECODE to it (R96, R97). -/
theorem exec_decodeGroup_of_legal {s : State} (hl : paramsLegal s.params = true) (g : Group) :
    ∃ i, decodeGroup s.params.table g = .ok i ∧ exec i s = .next (applyGroup g s) := by
  have ht := paramsLegal_table hl
  unfold decodeGroup
  cases hm : firstMatch s.params.table g with
  | none => exact ⟨_, rfl, whenLegal_of_legal hl _⟩
  | some r =>
    obtain ⟨row, hrow, rfl, -⟩ := (firstMatch_eq_some_iff _ _ _).1 hm
    obtain ⟨i, hi⟩ := rowInstr_of_lt (tableLegal_length ht ▸ romRow_lt hrow)
    exact ⟨i, hi, (exec_of_rowInstr hi s).trans (applyRow_of_romRow hl hrow)⟩

theorem step_group {s : State} (hl : paramsLegal s.params = true) (hr : s.rst = false) (hp : s.phase = .decode)
    (hc : s.cut = .group) : step s = .next (applyGroup (groupOf s.work.sr s.group) (takeInputs s)) := by
  obtain ⟨i, hd, he⟩ := exec_decodeGroup_of_legal (s := takeInputs s) hl (groupOf s.work.sr s.group)
  exact (step_of_word (fetch_of_group hr hp hc) hd).trans he

theorem step_assemble {s : State} (hl : paramsLegal s.params = true) (hr : s.rst = false) (hp : s.phase = .assemble) :
    step s = .next (afterAssemble (runAssemble (takeInputs s))) :=
  (step_of_phase hr hp rfl nofun rfl).trans (whenLegal_of_legal (s := takeInputs s) hl _)

theorem step_filter {s : State} (hl : paramsLegal s.params = true) (hr : s.rst = false) (hp : s.phase = .filter)
    (hv : candidateLegal s.work.val = true) : step s = .next (runFilter s.work.val (takeInputs s)) :=
  (step_of_phase hr hp rfl nofun rfl).trans (exec_filter_of_candidate (s := takeInputs s) hl hv)

/-! Progress (R184, R208). -/

/-- In P_IDLE and P_DONE CORE waits, accepts start, or runs ITERATE. -/
theorem safeStep_of_waiting {s : State} (hl : paramsLegal s.params = true) (hr : s.rst = false)
    (hp : s.phase = .idle ∨ s.phase = .done) : SafeStep s := by
  cases h : s.start && !s.busy with
  | false => exact ⟨_, step_wait hl hr hp h⟩
  | true =>
    obtain ⟨hs, hb⟩ : s.start = true ∧ s.busy = false := by simpa using h
    by_cases hc : s.cut = .iteration
    · exact ⟨_, step_iterate hl hr hp hs hb hc⟩
    · exact ⟨_, step_accept hl hr hp hs hb hc⟩

/-- R28: the start index that SYNC left is a window index. -/
theorem State.Inv.syncIdx_lt {s : State} (h : s.Inv) : s.work.syncIdx < s.params.n := by
  obtain ⟨-, -, hj, -⟩ := h.work
  exact hj

/-- R181: P_FILTER is entered with a candidate. -/
theorem State.Inv.candidateLegal {s : State} (h : s.Inv) (hp : s.phase = .filter) :
    candidateLegal s.work.val = true := by
  obtain ⟨-, -, -, -, -, -, -, -, -, -, -, h999, -⟩ := h.work
  obtain ⟨-, -, -, -, -, hfilter⟩ := h.phase
  obtain ⟨-, h1⟩ := hfilter hp
  exact (candidateLegal_iff _).2 ⟨h1, h999⟩

/-- Settles O55: the parameters are legal, and the invariant meets the operand checks of EXTRACT and FILTER. -/
theorem nothingStopsALegalMachine : Obligations.NothingStopsALegalMachine := by
  intro s h
  have hl := h.standing.legal
  cases hr : s.rst with
  | true => exact ⟨_, (step_of_word (i := .reset) (fetch_of_rst hr) rfl).trans
      (whenLegal_of_legal (s := takeInputs s) hl _)⟩
  | false =>
    cases hp : s.phase with
    | idle => exact safeStep_of_waiting hl hr (.inl hp)
    | sync => exact ⟨_, step_sync hl hr hp⟩
    | extract => exact ⟨_, step_extract hl hr hp h.syncIdx_lt⟩
    | decode =>
      by_cases hc : s.cut = .group
      · exact ⟨_, step_group hl hr hp hc⟩
      · exact ⟨_, step_decode hl hr hp hc⟩
    | assemble => exact ⟨_, step_assemble hl hr hp⟩
    | filter => exact ⟨_, step_filter hl hr hp (h.candidateLegal hp)⟩
    | done => exact safeStep_of_waiting hl hr (.inr hp)

/-! The phase table (R181). -/

/-- Out of P_ASSEMBLE a complete frame takes one of three ways. -/
theorem afterAssemble_of_complete {s : State} (hf : frameComplete s.work = true) :
    afterAssemble s = raise .unrecognized s ∨ afterAssemble s = raise .zeroDiscard s
      ∨ afterAssemble s = { s with phase := .filter } := by
  cases hv : s.work.valValid with
  | false => exact .inl (afterAssemble_invalid hv hf)
  | true =>
    by_cases h0 : s.work.val = 0
    · exact .inr (.inl (afterAssemble_zero hv h0))
    · exact .inr (.inr (afterAssemble_candidate hv h0))

/-- R31: where CORE waits it is not busy. -/
theorem State.Inv.busy_eq_false {s : State} (h : s.Inv) (hp : s.phase = .idle ∨ s.phase = .done) : s.busy = false := by
  obtain ⟨-, -, -, -, -, -, -, ⟨hb, -⟩, -⟩ := h
  rcases hp with hp | hp <;> rw [hb, hp] <;> rfl

theorem State.Inv.frameComplete {s : State} (h : s.Inv) (hp : s.phase = .assemble) :
    frameComplete s.work = true := by
  obtain ⟨-, -, -, -, hasm, -⟩ := h.phase
  obtain ⟨⟨-, hf, -⟩, -⟩ := hasm hp
  exact hf

/-- The transfer out of phase p to where t is, with the status of t where the iteration has ended. -/
abbrev MakesTransfer (p : Phase) (t : State) : Prop :=
  phaseTransfer p t.phase (if t.phase = .done then some t.status else none) = true

theorem afterSync_transfer (s : State) : MakesTransfer .sync (afterSync s) := by
  rcases afterSync_cases s with e | e <;> rw [e] <;> rfl

theorem afterExtract_transfer (s : State) : MakesTransfer .extract (afterExtract s) := by
  rcases afterExtract_cases s with e | e <;> rw [e] <;> rfl

theorem afterAssemble_transfer {s : State} (hf : frameComplete s.work = true) :
    MakesTransfer .assemble (afterAssemble s) := by
  rcases afterAssemble_of_complete hf with e | e | e <;> rw [e] <;> rfl

theorem runFilter_transfer (v : Value) (s : State) : MakesTransfer .filter (runFilter v s) := by
  obtain ⟨c, x, e, -⟩ := runFilter_eq v s
  rw [e]
  rfl

/-- Settles O50: the step of each phase is its operation, and each operation's ends are rows of the table. -/
theorem phasesFollowTheTransferTable : Obligations.PhasesFollowTheTransferTable := by
  intro s h hr hc hsb
  have hl := h.standing.legal
  have haccept (hp : s.phase = .idle ∨ s.phase = .done) : step s = .next (acceptStart (takeInputs s)) := by
    have hb := h.busy_eq_false hp
    exact step_accept hl hr hp (hsb.resolve_right (by simp [hb])) hb (by simp [hc])
  cases hp : s.phase with
  | idle => exact ⟨_, haccept (.inl hp), rfl⟩
  | done => exact ⟨_, haccept (.inr hp), rfl⟩
  | sync => exact ⟨_, step_sync hl hr hp, afterSync_transfer _⟩
  | extract => exact ⟨_, step_extract hl hr hp h.syncIdx_lt, afterExtract_transfer _⟩
  | decode => exact ⟨_, step_decode hl hr hp (by simp [hc]), rfl⟩
  | assemble =>
    exact ⟨_, step_assemble hl hr hp, afterAssemble_transfer ((runAssemble_frameComplete _).trans (h.frameComplete hp))⟩
  | filter => exact ⟨_, step_filter hl hr hp (h.candidateLegal hp), runFilter_transfer _ _⟩

/-! The environment (R53, R187, R230). -/

theorem samplerWrite_eq_next {i : Nat} {v : Sample} {s t : State} (h : samplerWrite i v s = .next t) :
    s.busy = false ∧ t = writeEntry i v s := by
  unfold samplerWrite at h
  split at h
  · cases h
  · next hb =>
    split at h
    · exact ⟨Bool.eq_false_iff.2 hb, (Host.Outcome.next.inj h).symm⟩
    · cases h

/-- The Sampler's write changes the window alone, and keeps its form. -/
theorem writeEntry_inv {s : State} (h : s.Inv) (i : Nat) (v : Sample) : (writeEntry i v s).Inv := by
  obtain ⟨hl, hwf, -, hrest⟩ := h
  have hwf' := writeEntry_wf i v hwf
  rw [writeEntry_eq] at hwf' ⊢
  exact ⟨hl, hwf', fun _ => rfl, hrest⟩

/-- Settles O56: the invariant says nothing of the input pins, and the Sampler's write keeps it. -/
theorem environmentKeepsTheInvariant : Obligations.EnvironmentKeepsTheInvariant := by
  refine fun s h => ⟨h, h, fun i v t ht => ?_⟩
  obtain ⟨-, rfl⟩ := samplerWrite_eq_next ht
  exact writeEntry_inv h i v

end Sys2Proof.Machine
end

section
/-! PROOFS. The ends of an iteration (R182, R183): an early outcome or the accepted end, each with what it leaves in the
registers; what a commit says (R190); and ITERATE in one step against its phases in turn (R252). -/

namespace Sys2Proof.Machine

/-! ASSEMBLE after DECODE (R155, R182). -/

/-- ASSEMBLE of decoded registers writes the same digits again. -/
theorem assembledWork_decodedWork_digits (t : Table) (w : Working) :
    (assembledWork t (decodedWork t w)).digValid = (decodedWork t w).digValid
      ∧ (assembledWork t (decodedWork t w)).dig = (decodedWork t w).dig := by
  cases hf : frameComplete (decodedWork t w) with
  | false => exact assembledWork_digits_of_incomplete hf t
  | true => exact assembledWork_digits_of_complete hf t

/-- Settles O25: whether the frame is complete or not, ASSEMBLE of DECODE's results has DECODE's digits. -/
theorem assembleKeepsTheDecodedDigits : Obligations.AssembleKeepsTheDecodedDigits := by
  intro s t h
  have hl := paramsLegal_of_exec h
  obtain rfl := eq_of_whenLegal_next h
  refine ⟨_, exec_assemble_of_legal hl, ?_⟩
  rw [afterAssemble_work, withWork_work]
  exact assembledWork_decodedWork_digits s.params.table s.work

/-! The two kinds of end. -/

/-- EXTRACT leaves the digits and the value as the accepted start cleared them. -/
theorem FrameRead.cleared {s : State} {j : Nat} {w : Working} (h : FrameRead s j w) :
    w.syncFound = true ∧ w.syncIdx = j ∧ digitsCleared w ∧ valCleared w := by
  rcases h with ⟨q, sr, nb, -, -, rfl⟩ | ⟨sr, nb, r, -, -, -, rfl⟩ <;>
    exact ⟨rfl, rfl, cleared_digits, rfl, rfl⟩

/-- R183: an early outcome over registers that are as it leaves them, or FILTER of the value of an assembled frame. -/
theorem iterate_ends {s : State} (hl : paramsLegal s.params = true) :
    (∃ x w, iterate s = raise x (withWork w (acceptStart s)) ∧ outcomeInv (raise x (withWork w (acceptStart s))))
    ∨ ∃ w, iterate s = runFilter w.val (withWork w (acceptStart s))
        ∧ frameAssembled (withWork w (acceptStart s)) ∧ 1 ≤ w.val.toNat := by
  rcases iterate_spec hl with ⟨r, -, -, -, e⟩ | ⟨a, j, w, -, hw, hend⟩
  · refine .inl ⟨_, _, e, nofun, fun _ => ?_, nofun, nofun, nofun, nofun⟩
    exact ⟨rfl, ⟨rfl, rfl, rfl, rfl⟩, cleared_digits, ⟨rfl, rfl⟩, rfl⟩
  · obtain ⟨hfound, -, hdig, hval⟩ := hw.cleared
    have hdec : digitsDecoded (acceptStart s).params.table (decodedWork s.params.table w) := by
      rw [acceptStart_params]
      exact decodedWork_digits _ w
    rcases hend with ⟨hf, e⟩ | ⟨hf, hall, e⟩ | ⟨hf, hall, h0, e⟩ | ⟨hf, hall, h1, e⟩
    · exact .inl ⟨_, _, e, nofun, nofun, fun _ => ⟨hfound, hf, hdig, hval, rfl⟩, nofun, nofun, nofun⟩
    · exact .inl ⟨_, _, e, nofun, nofun, nofun, fun _ => ⟨⟨hfound, hf, hdec⟩, hall, hval, rfl⟩, nofun, nofun⟩
    · refine .inl ⟨_, _, e, nofun, nofun, nofun, nofun, fun _ => ?_, nofun⟩
      exact ⟨⟨⟨hfound, hf, hdec⟩, hall, rfl, h0.symm⟩, rfl, rfl⟩
    · exact .inr ⟨_, e, ⟨⟨hfound, hf, hdec⟩, hall, rfl, rfl⟩, h1⟩

/-! Commits (R164, R167, R190). -/

/-- R152: the value of three decoded digits is at most 999. -/
theorem assembledValue_le_of_decoded {t : Table} {w : Working} (ht : tableLegal t = true) (h : digitsDecoded t w) :
    (assembledValue w.dig).toNat ≤ 999 := by
  have hle (k : Fin 3) : (tripleGet w.dig k).toNat ≤ 9 := by
    obtain ⟨-, hd⟩ := h k
    rw [hd]
    exact digitValue_le ht _
  have h0 : w.dig.d0.toNat ≤ 9 := hle 0
  have h1 : w.dig.d1.toNat ≤ 9 := hle 1
  have h2 : w.dig.d2.toNat ≤ 9 := hle 2
  rw [assembledValue_toNat h0 h1 h2]
  omega

/-- The value of an assembled frame, where it is not 0, is a candidate (R154). -/
theorem candidateLegal_of_frameAssembled {s : State} (hl : paramsLegal s.params = true) (h : frameAssembled s)
    (h1 : 1 ≤ s.work.val.toNat) : candidateLegal s.work.val = true := by
  obtain ⟨⟨-, -, hdec⟩, -, -, hval⟩ := h
  exact (candidateLegal_iff _).2 ⟨h1, hval ▸ assembledValue_le_of_decoded (paramsLegal_table hl) hdec⟩

/-- FILTER commits its operand, and only one that differs from the value committed before. -/
theorem filterStep_commit_new {stab : Nat} {S : Stability} {v y : Value} (h : (filterStep stab S v).2 = .commit y) :
    y = v ∧ (S.lcValid = true → S.lc ≠ v) := by
  rcases filterStep_cases stab S v with
    ⟨-, e⟩ | ⟨-, -, -, e⟩ | ⟨-, -, -, hd, e⟩ | ⟨-, -, -, -, e⟩ | ⟨-, -, -, e⟩ <;> rw [e] at h <;> cases h
  refine ⟨rfl, fun hlc => ?_⟩
  rcases (differsFromCommitted_iff S v).1 hd with hno | hne
  · cases hno.symm.trans hlc
  · exact hne

/-- What a commit of FILTER says: a candidate, from now on the last committed value, and not the one before (R190). -/
theorem runFilter_commit {v : Value} {s : State} (hv : candidateLegal v = true) (h : (runFilter v s).commit = true) :
    (runFilter v s).stability.lcValid = true ∧ (runFilter v s).commitValue = (runFilter v s).stability.lc
      ∧ sinkSees (runFilter v s) = some (runFilter v s).commitValue
      ∧ 1 ≤ (runFilter v s).commitValue.toNat ∧ (runFilter v s).commitValue.toNat ≤ 999
      ∧ (s.stability.lcValid = true → s.stability.lc ≠ (runFilter v s).commitValue) := by
  obtain ⟨c, x, e, ⟨-, rfl, -⟩ | ⟨y, hy, rfl, rfl⟩⟩ := runFilter_eq v s <;> rw [e] at h ⊢
  · cases h
  · obtain ⟨hlc, hlast⟩ := filterStep_commit hy
    obtain ⟨rfl, hnew⟩ := filterStep_commit_new hy
    obtain ⟨h1, h999⟩ := (candidateLegal_iff _).1 hv
    exact ⟨hlc, hlast, rfl, h1, h999, hnew⟩

/-- Settles O30: a commit is FILTER's, run alone or on the value that the iteration assembled. -/
theorem commitsAreNewCandidates : Obligations.CommitsAreNewCandidates := by
  rintro i s t hi h - hb hc
  have hl := paramsLegal_of_exec h
  rcases hi with rfl | rfl
  · obtain ⟨hv, rfl⟩ := execFilter_eq_next h
    exact runFilter_commit hv hc
  · have hb : s.busy = false := hb.resolve_right nofun
    cases (execIterate_of_notBusy hl hb).symm.trans h
    rcases iterate_ends hl with ⟨x, w, e, -⟩ | ⟨w, e, hframe, h1⟩ <;> rw [e] at hc ⊢
    · cases hc
    · have hcommit := runFilter_commit (candidateLegal_of_frameAssembled (by simpa using hl) hframe h1) hc
      rwa [withWork_stability, acceptStart_stability] at hcommit

/-! What ITERATE leaves (R183, R184). -/

/-- ITERATE ends in P_DONE, and leaves what its outcome says. -/
theorem iterate_outcome {s : State} (hl : paramsLegal s.params = true) :
    (iterate s).phase = .done ∧ (iterate s).busy = false ∧ (iterate s).done = true
      ∧ (iterate s).params = s.params ∧ outcomeInv (iterate s) := by
  rcases iterate_ends hl with ⟨x, w, e, hout⟩ | ⟨w, e, hframe, h1⟩ <;> rw [e]
  · exact ⟨rfl, rfl, rfl, acceptStart_params s, hout⟩
  · obtain ⟨-, -, -, -, -, -, -, hcand, hval, -⟩ := runFilter_fields w.val (withWork w (acceptStart s))
    obtain ⟨c, v, e, -⟩ := runFilter_eq w.val (withWork w (acceptStart s))
    rw [e] at hcand hval ⊢
    exact ⟨rfl, rfl, rfl, acceptStart_params s, nofun, nofun, nofun, nofun, nofun,
      fun _ => ⟨hframe, h1, hcand, hval⟩⟩

/-- R204, R165: an early outcome leaves the stability state and does not commit. -/
theorem iterate_early {s : State} (hl : paramsLegal s.params = true) (h : (iterate s).status ≠ .accepted) :
    (iterate s).stability = s.stability ∧ (iterate s).commit = false ∧ (iterate s).commitValue = 0 := by
  rcases iterate_ends hl with ⟨x, w, e, -⟩ | ⟨w, e, -⟩ <;> rw [e] at h ⊢
  · exact ⟨acceptStart_stability s, rfl, rfl⟩
  · exact absurd (runFilter_status _ _) h

/-- R182: an accepted iteration ends as FILTER of its value does. -/
theorem iterate_accepted {s : State} (hl : paramsLegal s.params = true) (h : (iterate s).status = .accepted) :
    (iterate s).stability = (filterStep s.params.stab s.stability (iterate s).work.val).1
      ∧ ((filterStep s.params.stab s.stability (iterate s).work.val).2 = .commit (iterate s).work.val →
          (iterate s).commit = true ∧ (iterate s).commitValue = (iterate s).work.val)
      ∧ ((filterStep s.params.stab s.stability (iterate s).work.val).2 = .noCommit →
          (iterate s).commit = false ∧ (iterate s).commitValue = 0) := by
  rcases iterate_ends hl with ⟨x, w, e, -⟩ | ⟨w, e, -⟩ <;> rw [e] at h ⊢
  · cases x <;> cases h
  · obtain ⟨hwork, -, -, -, -, -, hstab, -, -, hcommit, hno⟩ := runFilter_fields w.val (withWork w (acceptStart s))
    rw [withWork_params, withWork_stability, acceptStart_params, acceptStart_stability] at hstab hcommit hno
    rw [hwork]
    exact ⟨hstab, hcommit, hno⟩

/-! The frame that EXTRACT reads stays (R183). -/

/-- The two register sets hold the same frame. -/
structure SameFrame (w1 w2 : Working) : Prop where
  sr       : w1.sr = w2.sr
  nbits    : w1.nbits = w2.nbits
  eofFound : w1.eofFound = w2.eofFound
  eofIdx   : w1.eofIdx = w2.eofIdx

theorem SameFrame.trans {w1 w2 w3 : Working} (h : SameFrame w1 w2) (h' : SameFrame w2 w3) : SameFrame w1 w3 :=
  ⟨h.sr.trans h'.sr, h.nbits.trans h'.nbits, h.eofFound.trans h'.eofFound, h.eofIdx.trans h'.eofIdx⟩

theorem assembledWork_sameFrame (t : Table) (w : Working) : SameFrame (assembledWork t w) w := by
  unfold assembledWork
  split
  · split <;> exact ⟨rfl, rfl, rfl, rfl⟩
  · exact ⟨rfl, rfl, rfl, rfl⟩

/-- No stage of ITERATE after EXTRACT writes the frame. -/
theorem afterFrame_sameFrame {e : State} (hg : e.group = 0) : SameFrame (afterFrame e).work e.work := by
  refine afterFrame_keeps (P := fun u => SameFrame u.work e.work) (fun u _ h => ?_) (fun u _ h => ?_) (fun u _ h => ?_)
    hg ?_
  · rw [runDecode_work]
    exact ⟨h.sr, h.nbits, h.eofFound, h.eofIdx⟩
  · rw [afterAssemble_work, runAssemble_work]
    exact (assembledWork_sameFrame _ _).trans h
  · obtain ⟨hwork, -⟩ := runFilter_fields u.work.val u
    rwa [hwork]
  · rw [afterExtract_work]
    exact ⟨rfl, rfl, rfl, rfl⟩

/-- Unless SYNC failed, ITERATE leaves the frame of EXTRACT, run after SYNC from the accepted start. -/
theorem iterate_frame {s : State} (hl : paramsLegal s.params = true) (h : (iterate s).status ≠ .syncFail) :
    ∃ u e, exec .sync (acceptStart s) = .next u ∧ u.phase = .extract ∧ exec .extract u = .next e
      ∧ SameFrame (iterate s).work e.work := by
  have hla : paramsLegal (acceptStart s).params = true := by simpa using hl
  rw [iterate_eq_afterFrame] at h ⊢
  cases hfound : (runSync (acceptStart s)).work.syncFound with
  | false => simp [hfound, EarlyOutcome.status] at h
  | true =>
    have hu : afterSync (runSync (acceptStart s)) = { runSync (acceptStart s) with phase := .extract } := if_pos hfound
    have hj := runSync_syncIdx_lt hla hfound
    have hparams : (runSync (acceptStart s)).params = (acceptStart s).params := by rw [runSync_frame, withWork_params]
    refine ⟨_, _, (exec_sync_of_legal hla).trans (congrArg _ hu), rfl,
      exec_extract_of_lt (hparams ▸ hla) (hparams ▸ hj), ?_⟩
    rw [if_pos rfl, afterExtract_work]
    refine afterFrame_sameFrame ?_
    rw [runExtract_frame, withWork_group, runSync_frame]
    rfl

/-- Settles O32: the ends of ITERATE, and the frame that no stage after EXTRACT writes. -/
theorem iterateLeavesWhatItsOutcomeSays : Obligations.IterateLeavesWhatItsOutcomeSays := by
  intro s hl hb
  obtain ⟨hphase, hbusy, hdone, hparams, hout⟩ := iterate_outcome hl
  refine ⟨_, execIterate_of_notBusy hl hb, hphase, hbusy, hdone, hparams, hout, fun hs => ?_, iterate_early hl,
    iterate_accepted hl⟩
  obtain ⟨u, e, hsync, hu, hextract, hframe⟩ := iterate_frame hl hs
  exact ⟨u, e, hsync, hu, hextract, hframe.sr, hframe.nbits, hframe.eofFound, hframe.eofIdx⟩

end Sys2Proof.Machine
end

section
/-! PROOFS. ITERATE in one step against its phases in turn (R181, R182, R252): each phase's step leads from a state that
the steps have reached to the next, and ITERATE is made of the same operations. -/

namespace Sys2Proof.Machine

theorem core_run_of_step {s t : State} (h : step s = .next t) (k : Nat) :
    Host.Core.run core (k + 1) s = Host.Core.run core k t := by
  have h : core.step s = .next t := h
  simp only [Host.Core.run, h]

theorem core_run_of_refused {s : State} {r : Refusal} (h : step s = .refused r) (k : Nat) :
    Host.Core.run core (k + 1) s = .refused r := by
  have h : core.step s = .refused r := h
  simp only [Host.Core.run, h]

/-- One step more, at the end of a run. -/
theorem core_run_succ {k : Nat} {s x y : State} (h : Host.Core.run core k s = .next x) (hstep : step x = .next y) :
    Host.Core.run core (k + 1) s = .next y := by
  induction k generalizing s with
  | zero =>
    cases h
    exact core_run_of_step hstep 0
  | succ k ih =>
    cases hs : step s with
    | next s' => exact (core_run_of_step hs _).trans (ih ((core_run_of_step hs k).symm.trans h))
    | fault r => nomatch r
    | refused r => cases (core_run_of_refused hs k).symm.trans h

/-- How many steps, from a waiting CORE with start raised, may lead to each phase of the iteration. -/
def stepsTo : Phase → Nat
  | .idle => 0
  | .sync => 1
  | .extract => 2
  | .decode => 3
  | .assemble => 6
  | .filter => 7
  | .done => 8

/-- x is reached from s in the steps its phase allows, with the pins low and the operands of its phase in range. -/
structure ReachedFrom (s x : State) : Prop where
  legal     : paramsLegal x.params = true
  rst       : x.rst = false
  start     : x.start = false
  group     : x.group = 0
  syncIdx   : x.phase = .extract → x.work.syncIdx < x.params.n
  candidate : x.phase = .filter → candidateLegal x.work.val = true
  within    : ∃ k, k ≤ stepsTo x.phase ∧ Host.Core.run core k s = .next x

theorem ReachedFrom.pins {s x : State} (h : ReachedFrom s x) : takeInputs x = x := takeInputs_of_low h.rst h.start

/-- A step to a later phase. -/
theorem ReachedFrom.goOn {s x : State} {w : Working} {p : Phase} {k : Fin 3} (h : ReachedFrom s x) (hk : k = 0)
    (hlt : stepsTo x.phase < stepsTo p) (hj : p = .extract → w.syncIdx < x.params.n)
    (hv : p = .filter → candidateLegal w.val = true)
    (hstep : step x = .next { x with work := w, phase := p, group := k }) :
    ReachedFrom s { x with work := w, phase := p, group := k } := by
  obtain ⟨n, hn, hrun⟩ := h.within
  exact ⟨h.legal, h.rst, h.start, hk, hj, hv, n + 1, hn.trans_lt hlt, core_run_succ hrun hstep⟩

/-- A step that ends the iteration. -/
theorem ReachedFrom.ends {s x : State} {st : Status} {c : Bool} {v : Value} {w : Working} {S : Stability}
    (h : ReachedFrom s x) (hlt : stepsTo x.phase < 8)
    (hstep : step x = .next (endIteration st c v { x with work := w, stability := S })) :
    ReachedFrom s (endIteration st c v { x with work := w, stability := S }) := by
  obtain ⟨n, hn, hrun⟩ := h.within
  exact ⟨h.legal, h.rst, h.start, rfl, nofun, nofun, n + 1, hn.trans_lt hlt, core_run_succ hrun hstep⟩

/-! One lemma for each phase. -/

theorem ReachedFrom.sync {s u : State} (hp : u.phase = .sync) (h : ReachedFrom s u) :
    ReachedFrom s (afterSync (runSync u)) := by
  have hstep := step_sync h.legal h.rst hp
  rw [h.pins] at hstep
  cases hfound : (runSync u).work.syncFound with
  | true =>
    have hj := runSync_syncIdx_lt h.legal hfound
    rw [afterSync, if_pos hfound] at hstep ⊢
    rw [runSync_frame] at hstep ⊢
    exact h.goOn h.group (by rw [hp]; decide) (fun _ => hj) nofun hstep
  | false =>
    rw [afterSync, if_neg (by simp [hfound])] at hstep ⊢
    rw [runSync_frame] at hstep ⊢
    exact h.ends (by rw [hp]; decide) hstep

theorem ReachedFrom.extract {s u : State} (hp : u.phase = .extract) (h : ReachedFrom s u) :
    ReachedFrom s (afterExtract (runExtract u.work.syncIdx u)) := by
  have hstep := step_extract h.legal h.rst hp (h.syncIdx hp)
  rw [h.pins] at hstep
  rw [runExtract_frame] at hstep ⊢
  rcases afterExtract_cases (withWork (runExtract u.work.syncIdx u).work u) with e | e <;> rw [e] at hstep ⊢
  · exact h.goOn rfl (by rw [hp]; decide) nofun nofun hstep
  · exact h.ends (by rw [hp]; decide) hstep

/-- The three applications of DECODE, each a step, are DECODE of the frame (R182). -/
theorem core_run_groups {k : Nat} {s u : State} (h : Host.Core.run core k s = .next u)
    (hl : paramsLegal u.params = true) (hr : u.rst = false) (hs : u.start = false) (hp : u.phase = .decode)
    (hc : u.cut = .group) (hg : u.group = 0) :
    Host.Core.run core (k + 3) s = .next { runDecode u with phase := .assemble, group := 0 } := by
  obtain ⟨p, st, w, ph, bu, dn, su, co, cv, rs, sa, cw, cs, ce, cut, g⟩ := u
  obtain ⟨rfl, rfl, rfl, rfl, rfl⟩ : rs = false ∧ sa = false ∧ ph = .decode ∧ cut = .group ∧ g = 0 :=
    ⟨hr, hs, hp, hc, hg⟩
  have h0 := core_run_succ h (step_group hl rfl rfl rfl)
  have h1 := core_run_succ h0 (step_group hl rfl rfl rfl)
  exact core_run_succ h1 (step_group hl rfl rfl rfl)

theorem ReachedFrom.decode {s u : State} (hp : u.phase = .decode) (h : ReachedFrom s u) :
    ReachedFrom s { runDecode u with phase := .assemble, group := 0 } := by
  by_cases hc : u.cut = .group
  · obtain ⟨n, hn, hrun⟩ := h.within
    rw [hp] at hn
    exact ⟨h.legal, h.rst, h.start, rfl, nofun, nofun, n + 3, Nat.add_le_add_right hn 3,
      core_run_groups hrun h.legal h.rst h.start hp hc h.group⟩
  · have hstep := step_decode h.legal h.rst hp hc
    rw [h.pins] at hstep
    exact h.goOn rfl (by rw [hp]; decide) nofun nofun hstep

theorem valid_of_afterAssemble_filter {s : State} (h : (afterAssemble s).phase = .filter) :
    s.work.valValid = true ∧ s.work.val ≠ 0 := by
  unfold afterAssemble at h
  split at h
  · next hv =>
    split at h
    · cases h
    · next h0 => exact ⟨hv, h0⟩
  · split at h <;> cases h

/-- R154: P_FILTER is entered with a candidate. -/
theorem candidateLegal_of_afterAssemble {u : State} (hl : paramsLegal u.params = true)
    (h : (afterAssemble (runAssemble u)).phase = .filter) : candidateLegal (runAssemble u).work.val = true := by
  obtain ⟨hv, h0⟩ := valid_of_afterAssemble_filter h
  have h1 : 1 ≤ (runAssemble u).work.val.toNat := Nat.pos_of_ne_zero fun hz => h0 (BitVec.eq_of_toNat_eq hz)
  refine (candidateLegal_iff _).2 ⟨h1, ?_⟩
  cases hf : frameComplete u.work with
  | false =>
    rw [runAssemble_incomplete hf] at hv
    cases hv
  | true =>
    rcases runAssemble_complete hf with ⟨-, e⟩ | ⟨-, e⟩ <;> rw [e] at hv ⊢
    · exact assembledValue_le_of_decoded (paramsLegal_table hl) (decodedWork_digits _ _)
    · cases hv

theorem ReachedFrom.assemble {s u : State} (hp : u.phase = .assemble) (h : ReachedFrom s u) :
    ReachedFrom s (afterAssemble (runAssemble u)) := by
  have hstep := step_assemble h.legal h.rst hp
  rw [h.pins] at hstep
  have hv := candidateLegal_of_afterAssemble h.legal
  rcases afterAssemble_cases (runAssemble u) with e | ⟨x, e⟩ <;> rw [e] at hstep hv ⊢ <;>
    rw [runAssemble_frame] at hstep ⊢
  · exact h.goOn h.group (by rw [hp]; decide) nofun (fun _ => hv rfl) hstep
  · exact h.ends (by rw [hp]; decide) hstep

theorem ReachedFrom.filter {s u : State} (hp : u.phase = .filter) (h : ReachedFrom s u) :
    ReachedFrom s (runFilter u.work.val u) := by
  have hstep := step_filter h.legal h.rst hp (h.candidate hp)
  rw [h.pins] at hstep
  obtain ⟨c, v, e, -⟩ := runFilter_eq u.work.val u
  rw [e] at hstep ⊢
  exact h.ends (by rw [hp]; decide) hstep

/-- The accepted start is the first step. -/
theorem reachedFrom_acceptStart {s : State} (hl : paramsLegal s.params = true) (hr : s.rst = false)
    (hp : s.phase = .idle ∨ s.phase = .done) (hs : s.start = true) (hb : s.busy = false) (hc : s.cut ≠ .iteration) :
    ReachedFrom s (acceptStart (takeInputs s)) where
  legal := by simpa using hl
  rst := by simp
  start := by simp
  group := rfl
  syncIdx := nofun
  candidate := nofun
  within := ⟨1, le_rfl, core_run_succ (k := 0) rfl (step_accept hl hr hp hs hb hc)⟩

/-- Settles O31: what the accepted start reaches and each phase's step reaches on, ITERATE reaches. -/
theorem iterateIsThePhasesInTurn : Obligations.IterateIsThePhasesInTurn := by
  intro s hl hr hs hb hp hc
  have hreached : ReachedFrom s (iterate (takeInputs s)) :=
    iterate_keeps (reachedFrom_acceptStart hl hr hp hs hb hc) (fun _ => .sync) (fun _ => .extract) (fun _ => .decode)
      (fun _ => .assemble) (fun _ => .filter)
  obtain ⟨hphase, -⟩ := iterate_outcome (s := takeInputs s) hl
  obtain ⟨k, hk, hrun⟩ := hreached.within
  rw [hphase] at hk
  exact ⟨k, _, hk, hphase, execIterate_of_notBusy (s := takeInputs s) hl hb, hrun⟩

end Sys2Proof.Machine
end

section
/-! PROOFS. What an iteration says of the waveform (R185, R207, R240): its end is decided by the frame that EXTRACT
reads, and that frame by the first idle run, the first gap after it and the edges between them. -/

namespace Sys2Proof.Machine

/-! The end of an iteration as a function of the frame read (R182). -/

/-- How an iteration from s ends in t, where EXTRACT has left the registers w. -/
def FrameEnd (s t : State) (w : Working) : Prop :=
  (frameComplete w = false ∧ t = raise .incomplete (withWork w (acceptStart s)))
  ∨ (frameComplete w = true ∧ allRecognized (decodedWork s.params.table w).digValid = false
    ∧ t = raise .unrecognized (withWork (decodedWork s.params.table w) (acceptStart s)))
  ∨ (frameComplete w = true ∧ allRecognized (decodedWork s.params.table w).digValid = true
    ∧ assembledValue (decodedWork s.params.table w).dig = 0
    ∧ t = raise .zeroDiscard (withWork { decodedWork s.params.table w with valValid := true, val := 0 }
        (acceptStart s)))
  ∨ (frameComplete w = true ∧ allRecognized (decodedWork s.params.table w).digValid = true
    ∧ 1 ≤ (assembledValue (decodedWork s.params.table w).dig).toNat
    ∧ t = runFilter (assembledValue (decodedWork s.params.table w).dig) (withWork
        { decodedWork s.params.table w with
          valValid := true, val := assembledValue (decodedWork s.params.table w).dig }
        (acceptStart s)))

/-- Without an idle run the iteration fails in SYNC. -/
theorem iterate_of_noIdle {s : State} (hl : paramsLegal s.params = true)
    (hno : ∀ a b, IsLowRun (clk s) s.params.n a b → b - a + 1 < s.params.gap) : (iterate s).status = .syncFail := by
  rcases iterate_spec hl with ⟨r, -, -, -, e⟩ | ⟨a, j, w, ⟨hrun, hlen, -⟩, -⟩
  · rw [e]
    rfl
  · exact absurd (hno a j hrun) (Nat.not_lt.2 hlen)

/-- The first idle run is the sync point, and the frame read above it decides the end. -/
theorem iterate_of_firstIdle {s : State} (hl : paramsLegal s.params = true) {a j : Nat}
    (hidle : IsFirstIdle (clk s) s.params.n s.params.gap a j) : ∃ w, FrameRead s j w ∧ FrameEnd s (iterate s) w := by
  rcases iterate_spec hl with ⟨r, -, -, hno, -⟩ | ⟨a', j', w, hidle', hw, hend⟩
  · obtain ⟨hrun, hlen, -⟩ := hidle
    exact absurd hno (hrun.gap hlen (paramsLegal_gap hl))
  · obtain ⟨-, rfl⟩ := hidle.unique hidle'
    exact ⟨w, hw, hend⟩

/-- The stages after EXTRACT write the digits and the value alone. -/
theorem FrameEnd.work_eq {s t : State} {w : Working} (h : FrameEnd s t w) :
    t.work = { w with digValid := t.work.digValid, dig := t.work.dig,
                      valValid := t.work.valValid, val := t.work.val } := by
  rcases h with ⟨-, rfl⟩ | ⟨-, -, rfl⟩ | ⟨-, -, -, rfl⟩ | ⟨-, -, -, rfl⟩
  · rfl
  · rfl
  · rfl
  · obtain ⟨hwork, -⟩ := runFilter_fields (assembledValue (decodedWork s.params.table w).dig) (withWork
        { decodedWork s.params.table w with
          valValid := true, val := assembledValue (decodedWork s.params.table w).dig } (acceptStart s))
    rw [hwork]
    rfl

theorem FrameEnd.of_incomplete {s t : State} {w : Working} (h : FrameEnd s t w) (hf : frameComplete w = false) :
    t.status = .incomplete := by
  rcases h with ⟨-, rfl⟩ | ⟨hc, -⟩ | ⟨hc, -⟩ | ⟨hc, -⟩
  · rfl
  all_goals cases hf.symm.trans hc

theorem FrameEnd.of_complete {s t : State} {w : Working} (h : FrameEnd s t w) (hf : frameComplete w = true) :
    t.status = .unrecognized ∨ t.status = .zeroDiscard ∨ t.status = .accepted := by
  rcases h with ⟨hc, -⟩ | ⟨-, -, rfl⟩ | ⟨-, -, -, rfl⟩ | ⟨-, -, -, rfl⟩
  · cases hf.symm.trans hc
  · exact .inl rfl
  · exact .inr (.inl rfl)
  · exact .inr (.inr (runFilter_status _ _))

/-! The frame read as a function of the window (R125, R126). -/

theorem FrameRead.of_noGap {s : State} {j : Nat} {w : Working} (h : FrameRead s j w)
    (hno : ∀ q, q < s.params.n → ¬ IsGapAt (clk s) s.params.gap j q) : w.eofFound = false := by
  rcases h with ⟨q, sr, nb, ⟨hq, hgap, -⟩, -⟩ | ⟨sr, nb, r, -, -, -, rfl⟩
  · exact absurd hgap (hno q hq)
  · rfl

theorem FrameRead.of_firstGap {s : State} {j q : Nat} {w : Working} (h : FrameRead s j w)
    (hq : IsFirstGap (clk s) s.params.n s.params.gap j q) :
    w.eofFound = true ∧ w.eofIdx = q ∧ IsStreamOf (dat s) (edgesIn (clk s) j q) w.sr w.nbits := by
  rcases h with ⟨q', sr, nb, hq', hst, rfl⟩ | ⟨sr, nb, r, hno, -⟩
  · obtain rfl := hq.unique hq'
    exact ⟨rfl, rfl, hst⟩
  · exact absurd hq.2.1 (hno q hq.1)

/-- A frame is complete exactly when it closes with a gap after 21 edges or more. -/
theorem FrameRead.frameComplete_iff {s : State} {j q : Nat} {w : Working} (h : FrameRead s j w)
    (hq : IsFirstGap (clk s) s.params.n s.params.gap j q) :
    frameComplete w = true ↔ 21 ≤ (edgesIn (clk s) j q).length := by
  obtain ⟨heof, -, hnb, -⟩ := h.of_firstGap hq
  simp [Machine.frameComplete_iff, heof, hnb]

/-- Settles O35: no idle run fails in SYNC; after one, the frame read is incomplete without a gap, or with fewer than
21 edges before it. -/
theorem firstFailureIsReported : Obligations.FirstFailureIsReported := by
  refine fun s hl hb => ⟨_, execIterate_of_notBusy hl hb, iterate_of_noIdle hl, fun a j hidle => ?_⟩
  obtain ⟨w, hw, hend⟩ := iterate_of_firstIdle hl hidle
  obtain ⟨hfound, hidx, -⟩ := hw.cleared
  rw [hend.work_eq]
  refine ⟨hfound, hidx, fun hno => ?_, fun q hq => ?_⟩
  · have heof := hw.of_noGap hno
    exact ⟨hend.of_incomplete (frameComplete_of_noEof heof), heof⟩
  · have hcomplete := hw.frameComplete_iff hq
    obtain ⟨heof, heofIdx, -⟩ := hw.of_firstGap hq
    exact ⟨heof, heofIdx,
      fun hlt => hend.of_incomplete (Bool.eq_false_iff.2 fun hc => Nat.not_le.2 hlt (hcomplete.1 hc)),
      fun hle => hend.of_complete (hcomplete.2 hle)⟩

/-! The value that the wire spells (R151, R185). -/

/-- A stream is its 21 bits. -/
theorem stream_ext {sr sr' : Stream} (h : ∀ k, k < 21 → streamBit sr k = streamBit sr' k) : sr = sr' := by
  refine BitVec.eq_of_getLsbD_eq fun i hi => ?_
  have hbit := h (20 - i) (by omega)
  have hidx : 20 - (20 - i) = i := by omega
  have hk : 20 - i < 21 := by omega
  simpa [streamBit, hidx, hk] using hbit

/-- The edges and the data line decide the stream and the number of its bits. -/
theorem IsStreamOf.unique {dat : Nat → Bool} {edges : List Nat} {sr sr' : Stream} {nb nb' : Nat}
    (h : IsStreamOf dat edges sr nb) (h' : IsStreamOf dat edges sr' nb') : sr = sr' ∧ nb = nb' := by
  obtain ⟨rfl, hbits, hzero⟩ := h
  obtain ⟨rfl, hbits', hzero'⟩ := h'
  refine ⟨stream_ext fun k hk => ?_, rfl⟩
  rcases Nat.lt_or_ge k (min 21 edges.length) with hlt | hge
  · rw [hbits k hlt, hbits' k hlt]
  · rw [hzero k hge hk, hzero' k hge hk]

/-- The end of a frame of three recognized digits: their value, accepted or discarded. -/
theorem FrameEnd.of_digits {s t : State} {w : Working} {v0 v1 v2 : Digit} (h : FrameEnd s t w)
    (hl : paramsLegal s.params = true) (hf : frameComplete w = true)
    (h0 : decodeDigit s.params.table (groupOf w.sr 0) = .digit v0)
    (h1 : decodeDigit s.params.table (groupOf w.sr 1) = .digit v1)
    (h2 : decodeDigit s.params.table (groupOf w.sr 2) = .digit v2) :
    t.work.dig = ⟨v0, v1, v2⟩ ∧ t.work.valValid = true
      ∧ t.work.val.toNat = 100 * v0.toNat + 10 * v1.toNat + v2.toNat
      ∧ (1 ≤ t.work.val.toNat → t.status = .accepted) ∧ (t.work.val.toNat = 0 → t.status = .zeroDiscard) := by
  have ht := paramsLegal_table hl
  have hsum : (assembledValue ⟨v0, v1, v2⟩).toNat = 100 * v0.toNat + 10 * v1.toNat + v2.toNat :=
    assembledValue_toNat (decodeDigit_le ht h0) (decodeDigit_le ht h1) (decodeDigit_le ht h2)
  unfold FrameEnd at h
  rw [decodedWork_of_digits h0 h1 h2] at h
  rcases h with ⟨hc, -⟩ | ⟨-, hall, -⟩ | ⟨-, -, hz, rfl⟩ | ⟨-, -, hpos, rfl⟩
  · cases hf.symm.trans hc
  · cases hall
  · rw [hz] at hsum
    exact ⟨rfl, rfl, hsum, nofun, fun _ => rfl⟩
  · obtain ⟨hwork, -, -, -, -, hstatus, -⟩ := runFilter_fields (assembledValue ⟨v0, v1, v2⟩) (withWork
        { w with digValid := ⟨true, true, true⟩, dig := ⟨v0, v1, v2⟩
                 valValid := true, val := assembledValue ⟨v0, v1, v2⟩ } (acceptStart s))
    rw [hwork]
    exact ⟨rfl, rfl, hsum, fun _ => hstatus, fun hz => absurd hz (Nat.ne_of_gt hpos)⟩

/-- Settles O36: the frame read is the one on the wire, complete and of three recognized digits. -/
theorem frameOnTheWireIsAssembled : Obligations.FrameOnTheWireIsAssembled := by
  intro s a j q sr nb v0 v1 v2 hl hb hidle hq hedges hst h0 h1 h2
  obtain ⟨w, hw, hend⟩ := iterate_of_firstIdle hl hidle
  obtain ⟨-, hidx, -⟩ := hw.cleared
  obtain ⟨-, heofIdx, hst'⟩ := hw.of_firstGap hq
  obtain ⟨rfl, -⟩ := hst'.unique hst
  have hnb : w.nbits = 21 := hst'.1.trans (Nat.min_eq_left hedges)
  obtain ⟨hdig, hvalid, hval, hacc, hzero⟩ := hend.of_digits hl ((hw.frameComplete_iff hq).2 hedges) h0 h1 h2
  refine ⟨_, execIterate_of_notBusy hl hb, ?_, ?_, ?_, ?_, hdig, hvalid, hval, hacc, hzero⟩ <;> rw [hend.work_eq]
  exacts [hnb, hidx, heofIdx]

/-! The length of a complete frame (R240). -/

/-- From a low entry on, each falling edge takes two entries. -/
theorem edgesIn_length_le {clk : Nat → Bool} {s : Nat} (hs : clk s = false) {m : Nat} (hm : s ≤ m) :
    s + 2 * (edgesIn clk s m).length + (if clk m then 1 else 0) ≤ m := by
  induction m, hm using Nat.le_induction with
  | base => simp [hs]
  | succ m hm ih =>
    rw [edgesIn_succ clk hm]
    cases hedge : fallingEdge clk (m + 1) with
    | true =>
      obtain ⟨hhigh, hlow⟩ : clk m = true ∧ clk (m + 1) = false := by simpa [fallingEdge] using hedge
      simp only [hhigh, hlow, if_true, Bool.false_eq_true, if_false, List.length_append, List.length_singleton] at ih ⊢
      omega
    | false =>
      simp only [Bool.false_eq_true, if_false, List.append_nil]
      split <;> omega

/-- No edge is in the closing gap but its first entry. -/
theorem edgesIn_gap {clk : Nat → Bool} {gap s q : Nat} (hgap : 1 ≤ gap) (h : IsGapAt clk gap s q) :
    edgesIn clk s q = edgesIn clk s (q + 1 - gap) := by
  obtain ⟨hle, hlow⟩ := h
  have hnone : edgesIn clk (q + 1 - gap) q = [] := List.eq_nil_iff_forall_not_mem.2 fun p hp => by
    obtain ⟨hp1, hp2, hhigh, -⟩ := mem_edgesIn.1 hp
    exact absurd ((hlow (p - 1) (by omega) (by omega)).symm.trans hhigh) (by decide)
  rw [edgesIn_split (m := q + 1 - gap) (by omega) (by omega), hnone, List.append_nil]

/-- With GAP = 1 the first low sample is the closing gap, so two edges need more (R131). -/
theorem IsFirstGap.two_le_gap {clk : Nat → Bool} {n gap s q : Nat} (h : IsFirstGap clk n gap s q) (hgap : 1 ≤ gap)
    (hedges : 2 ≤ (edgesIn clk s q).length) : 2 ≤ gap := by
  obtain ⟨-, -, hfirst⟩ := h
  by_contra hlt
  obtain rfl : gap = 1 := by omega
  exact absurd hedges (Nat.not_le.2 (Nat.lt_succ_of_le (edgesIn_length_le_one hfirst)))

/-- The entry after the idle run is high where a gap is still to come. -/
theorem IsLowRun.high_after {clk : Nat → Bool} {n gap a j q : Nat} (h : IsLowRun clk n a j) (hgap : 1 ≤ gap)
    (hq : IsFirstGap clk n gap j q) : clk (j + 1) = true := by
  obtain ⟨-, -, -, -, hnext⟩ := h
  obtain ⟨hqn, ⟨hle, -⟩, -⟩ := hq
  exact hnext.resolve_left (by omega)

/-- The idle run, the edges and the closing gap one after the other fit in the window. -/
theorem frame_length_le {clk : Nat → Bool} {n gap a j q : Nat} (hidle : IsFirstIdle clk n gap a j) (hgap : 1 ≤ gap)
    (hq : IsFirstGap clk n gap j q) : 2 * gap + 2 * (edgesIn clk j q).length ≤ n + 1 := by
  obtain ⟨⟨haj, -, hlow, -⟩, hlen, -⟩ := hidle
  obtain ⟨hqn, hend, -⟩ := hq
  have hjq := hend.1
  have hcount := edgesIn_length_le (hlow j haj le_rfl) (show j ≤ q + 1 - gap by omega)
  rw [edgesIn_gap hgap hend]
  omega

theorem FrameRead.exists_firstGap {s : State} {j : Nat} {w : Working} (h : FrameRead s j w)
    (heof : w.eofFound = true) : ∃ q, IsFirstGap (clk s) s.params.n s.params.gap j q := by
  rcases h with ⟨q, sr, nb, hq, -⟩ | ⟨sr, nb, r, -, -, -, rfl⟩
  · exact ⟨q, hq⟩
  · cases heof

/-- An iteration that is accepted or discarded has read an idle run, 21 edges and a closing gap. -/
theorem iterate_waveform {s : State} (hl : paramsLegal s.params = true)
    (h : (iterate s).status = .accepted ∨ (iterate s).status = .zeroDiscard) :
    ∃ a j q, IsFirstIdle (clk s) s.params.n s.params.gap a j ∧ IsFirstGap (clk s) s.params.n s.params.gap j q
      ∧ 21 ≤ (edgesIn (clk s) j q).length := by
  rcases iterate_spec hl with ⟨r, -, -, -, e⟩ | ⟨a, j, w, hidle, hw, hend⟩
  · rw [e] at h
    exact h.elim nofun nofun
  · have hend : FrameEnd s (iterate s) w := hend
    have hf : frameComplete w = true := by
      by_contra hf
      rw [hend.of_incomplete (Bool.eq_false_iff.2 hf)] at h
      exact h.elim nofun nofun
    obtain ⟨heof, -⟩ := (frameComplete_iff w).1 hf
    obtain ⟨q, hq⟩ := hw.exists_firstGap heof
    exact ⟨a, j, q, hidle, hq, (hw.frameComplete_iff hq).1 hf⟩

/-- Settles O37: the frame's edges take two entries each, between the idle run and the closing gap. -/
theorem completeFramesNeedTheWaveform : Obligations.CompleteFramesNeedTheWaveform := by
  intro s t hb h hstatus
  have hl := paramsLegal_of_exec h
  have hgap := paramsLegal_gap hl
  cases (execIterate_of_notBusy hl hb).symm.trans h
  obtain ⟨a, j, q, hidle, hq, hedges⟩ := iterate_waveform hl hstatus
  have hlen := frame_length_le hidle hgap hq
  refine ⟨by omega, hq.two_le_gap hgap (by omega), a, j, q, hidle, hidle.1.high_after hgap hq, hq, ?_⟩
  rwa [← edgesIn_gap hgap hq.2.1]

end Sys2Proof.Machine
end

section
/-! PROOFS. The early outcomes (R204) and the status codes (R100). -/

namespace Sys2Proof.Machine

/-- R204: an early outcome is the end of an iteration with its own status and no commit. -/
theorem raise_eq (x : EarlyOutcome) (s : State) :
    raise x s = { s with status := x.status, commit := false, commitValue := 0
                         phase := .done, busy := false, done := true, group := 0, cwStale := true } := rfl

/-- R100: the codes 6 and 7 are not used. -/
theorem Status.code_toNat_le (st : Status) : st.code.toNat ≤ 5 := by
  cases st <;> decide

/-- Settles O38: the next state is what the end of an iteration writes, and the codes are the table of R100. -/
theorem raiseEndsTheIteration : Obligations.RaiseEndsTheIteration := fun x s =>
  ⟨raise_eq x s, rfl, rfl, Status.code_toNat_le, rfl, rfl, rfl, rfl⟩

end Sys2Proof.Machine
end

section
/-! PROOFS. RESET and the input pin rst (R230 to R232, R37), and the used-up window (R236). -/

namespace Sys2Proof.Machine

/-! RESET completes on a legal machine and leaves it waiting for start. -/

theorem exec_reset_of_legal {s : State} (hl : paramsLegal s.params = true) :
    exec .reset s = .next (resetRegisters s) := whenLegal_of_legal hl _

/-- R231: after RESET nothing happens until start. -/
theorem step_resetRegisters {s : State} (hl : paramsLegal s.params = true) :
    step (resetRegisters s) = .next (resetRegisters s) :=
  coreWaitsForStart (resetRegisters s) hl rfl rfl (.inl rfl)

/-- R232: rst comes before the operation of any phase. -/
theorem step_of_rst {s : State} (hr : s.rst = true) : step s = exec .reset (takeInputs s) :=
  step_of_word (fetch_of_rst hr) rfl

/-- Settles O1: the next state has the registers of State.reset, and it waits. -/
theorem resetGivesEveryRegisterItsResetValue : Obligations.ResetGivesEveryRegisterItsResetValue := by
  intro s hl
  have hdigits : digitsCleared (resetRegisters s).work := cleared_digits
  have hread : s.busy = false → ∀ i, sampleAt (resetRegisters s) i = sampleAt s i := sampleAt_resetRegisters
  exact ⟨resetRegisters s, exec_reset_of_legal hl, rfl, rfl, rfl, rfl, rfl, rfl, rfl, rfl, rfl, rfl, rfl,
    rfl, rfl, rfl, rfl, rfl, rfl, rfl, rfl, hdigits, rfl, rfl, rfl, rfl, hread, step_resetRegisters hl⟩

/-! The state after reset. -/

theorem reset_legal : paramsLegal State.reset.params = true := by decide

@[simp] theorem resetRegisters_reset : resetRegisters State.reset = State.reset := rfl

/-- Settles O2: the parameters after reset are legal, and clearing the registers again changes none. -/
theorem resetStateIsAFixedPointOfReset : Obligations.ResetStateIsAFixedPointOfReset :=
  ⟨(exec_reset_of_legal reset_legal).trans (congrArg Host.Outcome.next resetRegisters_reset), rfl, rfl, rfl, rfl, reset_legal⟩

/-- Settles O3: the step is RESET, whatever the phase. -/
theorem rstAbortsAnyPhase : Obligations.RstAbortsAnyPhase := by
  intro s hl hr
  have hreset : exec .reset (takeInputs s) = .next (resetRegisters (takeInputs s)) := exec_reset_of_legal hl
  exact ⟨resetRegisters (takeInputs s), (step_of_rst hr).trans hreset, hreset,
    rfl, rfl, rfl, rfl, rfl, rfl, rfl, rfl⟩

/-- Settles O53: the registers are cleared, CORE is in P_IDLE, and the other phases' clauses do not apply. -/
theorem resetStateMeetsTheInvariant : Obligations.ResetStateMeetsTheInvariant := by
  have hstability : stabilityInv State.reset.params.stab Stability.none := by decide
  have hcommitted : stableIsCommitted State.reset.params.stab Stability.none := nofun
  have hhandshake : handshakeInv State.reset := by decide
  have hphase : phaseInv State.reset := ⟨fun _ => ⟨rfl, rfl, rfl⟩, nofun, nofun, nofun, nofun, nofun⟩
  exact ⟨reset_legal, rfl, nofun, fun _ => rfl, hstability, hcommitted, workInv_cleared reset_legal, hhandshake,
    hphase, nofun⟩

/-! A used-up window (R236). -/

/-- A used-up window is replaced by the next one in number. -/
theorem freshWindow_cwEpoch (s : State) :
    (freshWindow s).cwEpoch = if s.cwStale then s.cwEpoch + 1 else s.cwEpoch := by
  cases hs : s.cwStale with
  | true => simp [freshWindow_of_stale hs]
  | false => simp [freshWindow_of_fresh hs]

/-- The cells left in a used-up window are not read. -/
theorem sameBelow_of_stale {s : State} (hs : s.cwStale = true) (m : Memory) : SameBelow m s := fun a _ =>
  (sampleAt_of_stale (s := { s with cw := m }) hs a).trans (sampleAt_of_stale hs a).symm

/-- Settles O42: ITERATE uses up the window it reads, whose entries are then free values; and no instruction
distinguishes cells that are not read. -/
theorem usedUpWindowKeepsNoEntry : Obligations.UsedUpWindowKeepsNoEntry := by
  refine ⟨fun s t hb h => ?_, fun i s t m hs h => exec_withCw (sameBelow_of_stale hs m) h⟩
  have hl := paramsLegal_of_exec h
  cases (execIterate_of_notBusy hl hb).symm.trans h
  obtain ⟨-, -, hepoch, hstale, -⟩ := iterate_window hl
  refine ⟨hepoch.trans (freshWindow_cwEpoch s), fun a => ?_⟩
  have hfree := sampleAt_of_stale hstale a
  exact ⟨hfree, fun ha => (memReadCW_of_lt ha).trans (congrArg _ hfree)⟩

end Sys2Proof.Machine
end
